-- ==== Sys2Proof/Word.lean ====
section
/-! DEFINITION. The engine's word and byte, and four words held together (spec 00_scope.md R8, R9; 20_memory.md R65). -/

namespace Sys2Proof

/-- A data word or a command word: 32 bits (R8). Bit 0 is the least significant (R9). -/
abbrev Word := BitVec 32

/-- One byte of BUF: 8 bits (R20). -/
abbrev Byte := BitVec 8

/-- Four words in the order X0..X3 of a block, MK0..MK3 of a key, or W[4q]..W[4q+3] of a quartet
(10_state.md R22, 20_memory.md R65, R66). -/
structure Block where
  x0 : Word
  x1 : Word
  x2 : Word
  x3 : Word
  deriving DecidableEq, Repr

end Sys2Proof
end

