-- ==== Sys2Proof/Config.lean ====
section
/-! DEFINITION. What the spec leaves to the implementation or leaves unspecified: the parameters of 00_scope.md R7
and the free values of 93_implementation_defined.md I4 and I5. A constant here has no body, so no proof can see its value. -/

namespace Sys2Proof

/-- The parameter BUF_BYTES (R7): a multiple of 16 with 16 <= BUF_BYTES <= 4096, held as BUF_BYTES / 16 - 1, so that
every value is legal and every legal value is one of them. -/
structure Params where
  bufUnits : Fin 256
  deriving DecidableEq, Repr

/-- BUF_BYTES (R7, R33). -/
def Params.bufBytes (p : Params) : Nat :=
  16 * (p.bufUnits.val + 1)

/-- The reference value of R7, 4096 bytes (DESIGN CHOICE for `State.reset` alone, log entry 6). -/
def Params.reference : Params :=
  ⟨255⟩

/-- ANY32 of 20_memory.md R62: the value of the n-th read of W, RK or BUF made while BUSY = 1 (I4). -/
opaque Config.any32 : Nat → BitVec 32

/-- What the byte of BUF at an offset holds after power-up, until something writes it (70_reset_and_hazards.md R242; I5). -/
opaque Config.bufPowerUp : Nat → BitVec 8

/-- LAT(op) - 1 (R7): any natural number for each opcode. -/
opaque Config.latMinusOne : BitVec 8 → Nat

/-- LAT(op), the busy time of a command that completes without a fault and without a key-size error
(R7, 70_reset_and_hazards.md R250): at least 1, a function of the opcode alone. No step reads it (log entry 7). -/
def Config.lat (op : BitVec 8) : Nat :=
  Config.latMinusOne op + 1

end Sys2Proof
end

