-- ==== Sys2Proof/Syntax.lean ====
section
/-! DEFINITION. The 18 commands of 30_encoding.md R95, one constructor per row of opcode_table.json, with the operands of R92. -/

namespace Sys2Proof

/-- A register operand (R93): the number n of W[n], 0..15. -/
abbrev Reg := Fin 16

/-- A quartet operand (R93): the number q of the quartet W[4q]..W[4q+3], 0..3. -/
abbrev Quartet := Fin 4

/-- The only immediate (R94): KRND's round index, 0..31. -/
abbrev RoundIndex := Fin 32

/-- A command. Operands stand in assembly order, destination first (R92, R101). -/
inductive Instr where
  | nop
  | sbox (wd ws : Reg)
  | tau (wd ws : Reg)
  | lenc (wd ws : Reg)
  | lkey (wd ws : Reg)
  | tenc (wd ws : Reg)
  | tkey (wd ws : Reg)
  | xor (wd ws1 ws2 : Reg)
  | rnd (qd : Quartet) (ws : Reg)
  | krnd (qd : Quartet) (i : RoundIndex)
  | fkx (qd : Quartet)
  | rev (qd : Quartet)
  | keyexp (qs : Quartet)
  | enc (qd qs : Quartet)
  | dec (qd qs : Quartet)
  | keyexpm (wk : Reg)
  | encm (wdst wsrc : Reg)
  | decm (wdst wsrc : Reg)
  deriving DecidableEq, Repr

end Sys2Proof
end

