-- ==== Sys2Proof/WellFormed.lean ====
section
/-! DEFINITION. Well-formed commands (30_encoding.md R92 to R94, R101, R102). The operands of `Instr` are typed so that
every `Instr` is well formed: a register is 0..15, a quartet 0..3 and aligned, a round index 0..31. What can be ill formed
is a command as it is WRITTEN, an assembler line with its numbers still unchecked. Its checks stand here, and
`assemble` (Sys2Proof/Decode.lean) turns a well-formed line, and no other, into an `Instr`. -/

namespace Sys2Proof

/-- What a line of assembler starts with: the 18 mnemonics of R95 and the pseudo-instruction CLR of R102
(the other pseudo-instructions are shorter operand lists of ENC, DEC, ENCM and DECM). -/
inductive Mnemonic where
  | nop | sbox | tau | lenc | lkey | tenc | tkey | xor | rnd | krnd | fkx | rev | keyexp | enc | dec | keyexpm | encm | decm
  | clr
  deriving DecidableEq, Repr

/-- A written operand (R101): `w<n>`, `q<n>` or an immediate. -/
inductive AsmOperand where
  | w (n : Nat)
  | q (n : Nat)
  | imm (n : Nat)
  deriving DecidableEq, Repr

/-- The kinds of operand a format asks for (R92). -/
inductive OperandKind where
  | w
  | q
  | imm
  deriving DecidableEq, Repr

/-- A written command: its mnemonic and its operands, destination first (R101). -/
structure AsmLine where
  mnemonic : Mnemonic
  operands : List AsmOperand
  deriving DecidableEq, Repr

/-- The kind of a written operand. -/
def AsmOperand.kind : AsmOperand → OperandKind
  | .w _ => .w
  | .q _ => .q
  | .imm _ => .imm

/-- The range of a written operand: w0..w15, q0..q3 (R101), an index 0..31 (R94). -/
def AsmOperand.inRange : AsmOperand → Bool
  | .w n => n < 16
  | .q n => n < 4
  | .imm n => n < 32

/-- The operand lists that R92 with R95, and for the pseudo-instructions R102, give a mnemonic. -/
def Mnemonic.shapes : Mnemonic → List (List OperandKind)
  | .nop => [[]]
  | .sbox | .tau | .lenc | .lkey | .tenc | .tkey => [[.w, .w]]
  | .xor => [[.w, .w, .w]]
  | .rnd => [[.q, .w]]
  | .krnd => [[.q, .imm]]
  | .fkx | .rev | .keyexp => [[.q]]
  | .enc | .dec => [[.q, .q], [.q]]
  | .keyexpm | .clr => [[.w]]
  | .encm | .decm => [[.w, .w], [.w]]

/-- A written command is well formed: its mnemonic takes this list of operand kinds, and every operand is in range. -/
def AsmLine.wellFormed (l : AsmLine) : Bool :=
  l.mnemonic.shapes.contains (l.operands.map AsmOperand.kind) && l.operands.all AsmOperand.inRange

end Sys2Proof
end

