-- ==== Sys2Proof/Decode.lean ====
section
/-! DEFINITION. Reading a command word (30_encoding.md R91 to R95, R98, R103), writing one (`encode`), the table of masks
and matches of R103, and the assembler of R101 and R102. Decoding is total on every 32-bit word and reads nothing else (R100). -/

namespace Sys2Proof

/-- `v[hi:lo]` of 00_scope.md R9. -/
abbrev bits (v : Word) (hi lo : Nat) : BitVec (hi - lo + 1) :=
  v.extractLsb hi lo

/-- `b0 || b1 || b2 || b3`: four bytes as one word, the first byte most significant (00_scope.md R12; 20_memory.md R65, R66). -/
def wordOfBytes (b0 b1 b2 b3 : Byte) : Word :=
  b0 ++ b1 ++ b2 ++ b3

/-! ## Fields (R91) -/

/-- op = c[31:24]. -/
def opField (c : Word) : BitVec 8 := bits c 31 24

/-- A register operand in the rd field, c[23:20] (R93). -/
def rdReg (c : Word) : Reg := (bits c 23 20).toFin

/-- A register operand in the rs1 field, c[19:16]. -/
def rs1Reg (c : Word) : Reg := (bits c 19 16).toFin

/-- A register operand in the rs2 field, c[15:12]. -/
def rs2Reg (c : Word) : Reg := (bits c 15 12).toFin

/-- A quartet operand in the rd field: q = f[3:2] with f = c[23:20] (R93). -/
def rdQuartet (c : Word) : Quartet := (bits c 23 22).toFin

/-- A quartet operand in the rs1 field: q = f[3:2] with f = c[19:16]. -/
def rs1Quartet (c : Word) : Quartet := (bits c 19 18).toFin

/-- KRND's index c[4:0] (R94). -/
def immIndex (c : Word) : RoundIndex := (bits c 4 0).toFin

/-! ## Formats (R92) -/

/-- The ten formats of R92. -/
inductive Format where
  | n | r2 | r3 | q | qr | qi | qq | qs | d1 | d2
  deriving DecidableEq, Repr

/-- The bits that R92's last column lists are all 0. They include the two low bits of a quartet field (R93)
and KRND's c[11:5] (R94). -/
def Format.zerosHold (f : Format) (c : Word) : Bool :=
  match f with
  | .n => bits c 23 0 == 0
  | .r2 => bits c 15 0 == 0
  | .r3 => bits c 11 0 == 0
  | .q => bits c 21 0 == 0
  | .qr => bits c 21 16 == 0 && bits c 11 0 == 0
  | .qi => bits c 21 12 == 0 && bits c 11 5 == 0
  | .qq => bits c 21 20 == 0 && bits c 17 0 == 0
  | .qs => bits c 23 20 == 0 && bits c 17 0 == 0
  | .d1 => bits c 23 20 == 0 && bits c 15 0 == 0
  | .d2 => bits c 23 20 == 0 && bits c 11 0 == 0

/-- The opcode map (R95): the format of an assigned opcode; none for an unassigned one. -/
def formatOf (op : BitVec 8) : Option Format :=
  match op with
  | 0x01#8 => some .n
  | 0x10#8 | 0x11#8 | 0x12#8 | 0x13#8 | 0x14#8 | 0x15#8 => some .r2
  | 0x16#8 => some .r3
  | 0x20#8 => some .qr
  | 0x21#8 => some .qi
  | 0x22#8 | 0x23#8 => some .q
  | 0x30#8 => some .qs
  | 0x31#8 | 0x32#8 => some .qq
  | 0x40#8 => some .d1
  | 0x41#8 | 0x42#8 => some .d2
  | _ => none

/-! ## The decoder (R98, R103) -/

/-- Why a word is ILLEGAL (R98): its opcode is unassigned (clause 1), or a bit that must be 0 is 1 (clause 2).
The engine step faults the same way on both. -/
inductive Illegal where
  | unassignedOpcode (op : BitVec 8)
  | reservedBits (op : BitVec 8)
  deriving DecidableEq, Repr

/-- A word with an assigned opcode is that command when the zero bits of its format hold. -/
def legal (f : Format) (c : Word) (i : Instr) : Except Illegal Instr :=
  if f.zerosHold c then .ok i else .error (.reservedBits (opField c))

/-- The decoder (R103), total on every word. -/
def decode (c : Word) : Except Illegal Instr :=
  match opField c with
  | 0x01#8 => legal .n c .nop
  | 0x10#8 => legal .r2 c (.sbox (rdReg c) (rs1Reg c))
  | 0x11#8 => legal .r2 c (.tau (rdReg c) (rs1Reg c))
  | 0x12#8 => legal .r2 c (.lenc (rdReg c) (rs1Reg c))
  | 0x13#8 => legal .r2 c (.lkey (rdReg c) (rs1Reg c))
  | 0x14#8 => legal .r2 c (.tenc (rdReg c) (rs1Reg c))
  | 0x15#8 => legal .r2 c (.tkey (rdReg c) (rs1Reg c))
  | 0x16#8 => legal .r3 c (.xor (rdReg c) (rs1Reg c) (rs2Reg c))
  | 0x20#8 => legal .qr c (.rnd (rdQuartet c) (rs2Reg c))
  | 0x21#8 => legal .qi c (.krnd (rdQuartet c) (immIndex c))
  | 0x22#8 => legal .q c (.fkx (rdQuartet c))
  | 0x23#8 => legal .q c (.rev (rdQuartet c))
  | 0x30#8 => legal .qs c (.keyexp (rs1Quartet c))
  | 0x31#8 => legal .qq c (.enc (rdQuartet c) (rs1Quartet c))
  | 0x32#8 => legal .qq c (.dec (rdQuartet c) (rs1Quartet c))
  | 0x40#8 => legal .d1 c (.keyexpm (rs1Reg c))
  | 0x41#8 => legal .d2 c (.encm (rs1Reg c) (rs2Reg c))
  | 0x42#8 => legal .d2 c (.decm (rs1Reg c) (rs2Reg c))
  | op => .error (.unassignedOpcode op)

/-- The host's way to ask the decoder about a table row: one 32-bit word is the whole instruction (R90), and its bits
are numbered as the table numbers them. The bits above `nbits` are 0; no command has more than 32. -/
def decodeTableWord (nbits w : Nat) : Option Instr :=
  if nbits ≤ 32 then (decode (BitVec.ofNat 32 (w % 2 ^ nbits))).toOption else none

/-! ## The encoder (R91 to R95) -/

/-- A register operand's 4-bit field (R93). -/
def regField (r : Reg) : BitVec 4 := BitVec.ofFin r

/-- A quartet operand's 4-bit field: qN is the field value 4N (R93, R101). -/
def quartetField (q : Quartet) : BitVec 4 := (BitVec.ofFin q : BitVec 2) ++ 0#2

/-- The imm field of a round index: 7 zero bits, then i[4:0] (R155). -/
def indexField (i : RoundIndex) : BitVec 12 := 0#7 ++ (BitVec.ofFin i : BitVec 5)

/-- A command word from its fields (R91). -/
def fieldsWord (op : BitVec 8) (rd rs1 rs2 : BitVec 4) (imm : BitVec 12) : Word :=
  op ++ rd ++ rs1 ++ rs2 ++ imm

/-- The opcode of a command (R95). -/
def Instr.opcode : Instr → BitVec 8
  | .nop => 0x01#8
  | .sbox _ _ => 0x10#8
  | .tau _ _ => 0x11#8
  | .lenc _ _ => 0x12#8
  | .lkey _ _ => 0x13#8
  | .tenc _ _ => 0x14#8
  | .tkey _ _ => 0x15#8
  | .xor _ _ _ => 0x16#8
  | .rnd _ _ => 0x20#8
  | .krnd _ _ => 0x21#8
  | .fkx _ => 0x22#8
  | .rev _ => 0x23#8
  | .keyexp _ => 0x30#8
  | .enc _ _ => 0x31#8
  | .dec _ _ => 0x32#8
  | .keyexpm _ => 0x40#8
  | .encm _ _ => 0x41#8
  | .decm _ _ => 0x42#8

/-- The word of a command (R92, R95). -/
def encode (i : Instr) : Word :=
  match i with
  | .nop => fieldsWord i.opcode 0#4 0#4 0#4 0#12
  | .sbox wd ws => fieldsWord i.opcode (regField wd) (regField ws) 0#4 0#12
  | .tau wd ws => fieldsWord i.opcode (regField wd) (regField ws) 0#4 0#12
  | .lenc wd ws => fieldsWord i.opcode (regField wd) (regField ws) 0#4 0#12
  | .lkey wd ws => fieldsWord i.opcode (regField wd) (regField ws) 0#4 0#12
  | .tenc wd ws => fieldsWord i.opcode (regField wd) (regField ws) 0#4 0#12
  | .tkey wd ws => fieldsWord i.opcode (regField wd) (regField ws) 0#4 0#12
  | .xor wd ws1 ws2 => fieldsWord i.opcode (regField wd) (regField ws1) (regField ws2) 0#12
  | .rnd qd ws => fieldsWord i.opcode (quartetField qd) 0#4 (regField ws) 0#12
  | .krnd qd k => fieldsWord i.opcode (quartetField qd) 0#4 0#4 (indexField k)
  | .fkx qd => fieldsWord i.opcode (quartetField qd) 0#4 0#4 0#12
  | .rev qd => fieldsWord i.opcode (quartetField qd) 0#4 0#4 0#12
  | .keyexp qs => fieldsWord i.opcode 0#4 (quartetField qs) 0#4 0#12
  | .enc qd qs => fieldsWord i.opcode (quartetField qd) (quartetField qs) 0#4 0#12
  | .dec qd qs => fieldsWord i.opcode (quartetField qd) (quartetField qs) 0#4 0#12
  | .keyexpm wk => fieldsWord i.opcode 0#4 (regField wk) 0#4 0#12
  | .encm wdst wsrc => fieldsWord i.opcode 0#4 (regField wdst) (regField wsrc) 0#12
  | .decm wdst wsrc => fieldsWord i.opcode 0#4 (regField wdst) (regField wsrc) 0#12

/-- The busy time of a command (R7, 70_reset_and_hazards.md R250): its opcode's LAT, whatever its operands. -/
def Instr.busyCycles (i : Instr) : Nat :=
  Config.lat i.opcode

/-! ## The table of R103 -/

/-- One row of opcode_table.json: a word c is this command when `c & mask = word`. -/
structure TableRow where
  mnemonic : Mnemonic
  word : Word
  mask : Word
  deriving DecidableEq, Repr

/-- Row test of R103. -/
def TableRow.matchesWord (r : TableRow) (c : Word) : Bool :=
  c &&& r.mask == r.word

/-- The 18 rows of R103, in its order. -/
def opcodeTable : List TableRow :=
  [⟨.nop, 0x01000000, 0xFFFFFFFF⟩, ⟨.sbox, 0x10000000, 0xFF00FFFF⟩, ⟨.tau, 0x11000000, 0xFF00FFFF⟩,
    ⟨.lenc, 0x12000000, 0xFF00FFFF⟩, ⟨.lkey, 0x13000000, 0xFF00FFFF⟩, ⟨.tenc, 0x14000000, 0xFF00FFFF⟩] ++
  [⟨.tkey, 0x15000000, 0xFF00FFFF⟩, ⟨.xor, 0x16000000, 0xFF000FFF⟩, ⟨.rnd, 0x20000000, 0xFF3F0FFF⟩,
    ⟨.krnd, 0x21000000, 0xFF3FFFE0⟩, ⟨.fkx, 0x22000000, 0xFF3FFFFF⟩, ⟨.rev, 0x23000000, 0xFF3FFFFF⟩] ++
  [⟨.keyexp, 0x30000000, 0xFFF3FFFF⟩, ⟨.enc, 0x31000000, 0xFF33FFFF⟩, ⟨.dec, 0x32000000, 0xFF33FFFF⟩,
    ⟨.keyexpm, 0x40000000, 0xFFF0FFFF⟩, ⟨.encm, 0x41000000, 0xFFF00FFF⟩, ⟨.decm, 0x42000000, 0xFFF00FFF⟩]

/-- The row a command belongs to. -/
def Instr.mnemonic : Instr → Mnemonic
  | .nop => .nop
  | .sbox _ _ => .sbox
  | .tau _ _ => .tau
  | .lenc _ _ => .lenc
  | .lkey _ _ => .lkey
  | .tenc _ _ => .tenc
  | .tkey _ _ => .tkey
  | .xor _ _ _ => .xor
  | .rnd _ _ => .rnd
  | .krnd _ _ => .krnd
  | .fkx _ => .fkx
  | .rev _ => .rev
  | .keyexp _ => .keyexp
  | .enc _ _ => .enc
  | .dec _ _ => .dec
  | .keyexpm _ => .keyexpm
  | .encm _ _ => .encm
  | .decm _ _ => .decm

/-! ## The assembler (R101, R102) -/

/-- What `wN` names, for N = 0..15. -/
def asReg (n : Nat) : Option Reg :=
  if h : n < 16 then some ⟨n, h⟩ else none

/-- What `qN` names, for N = 0..3. -/
def asQuartet (n : Nat) : Option Quartet :=
  if h : n < 4 then some ⟨n, h⟩ else none

/-- A round index, 0..31. -/
def asIndex (n : Nat) : Option RoundIndex :=
  if h : n < 32 then some ⟨n, h⟩ else none

/-- The six commands of format R2. -/
def asmR2 (i : Reg → Reg → Instr) : List AsmOperand → Option Instr
  | [.w d, .w s] => do return i (← asReg d) (← asReg s)
  | _ => none

/-- FKX, REV and KEYEXP. -/
def asmQuartet (i : Quartet → Instr) : List AsmOperand → Option Instr
  | [.q n] => do return i (← asQuartet n)
  | _ => none

/-- ENC and DEC; with one operand, in place (R102). -/
def asmQQ (i : Quartet → Quartet → Instr) : List AsmOperand → Option Instr
  | [.q d, .q s] => do return i (← asQuartet d) (← asQuartet s)
  | [.q d] => do return i (← asQuartet d) (← asQuartet d)
  | _ => none

/-- ENCM and DECM; with one operand, in place (R102). -/
def asmD2 (i : Reg → Reg → Instr) : List AsmOperand → Option Instr
  | [.w d, .w s] => do return i (← asReg d) (← asReg s)
  | [.w d] => do return i (← asReg d) (← asReg d)
  | _ => none

/-- A written command as a command (R101), pseudo-instructions expanded (R102). -/
def assemble (l : AsmLine) : Option Instr :=
  match l.mnemonic with
  | .nop => if l.operands.isEmpty then some .nop else none
  | .sbox => asmR2 .sbox l.operands
  | .tau => asmR2 .tau l.operands
  | .lenc => asmR2 .lenc l.operands
  | .lkey => asmR2 .lkey l.operands
  | .tenc => asmR2 .tenc l.operands
  | .tkey => asmR2 .tkey l.operands
  | .xor =>
    match l.operands with
    | [.w d, .w a, .w b] => do return .xor (← asReg d) (← asReg a) (← asReg b)
    | _ => none
  | .rnd =>
    match l.operands with
    | [.q d, .w s] => do return .rnd (← asQuartet d) (← asReg s)
    | _ => none
  | .krnd =>
    match l.operands with
    | [.q d, .imm n] => do return .krnd (← asQuartet d) (← asIndex n)
    | _ => none
  | .fkx => asmQuartet .fkx l.operands
  | .rev => asmQuartet .rev l.operands
  | .keyexp => asmQuartet .keyexp l.operands
  | .enc => asmQQ .enc l.operands
  | .dec => asmQQ .dec l.operands
  | .keyexpm =>
    match l.operands with
    | [.w k] => do return .keyexpm (← asReg k)
    | _ => none
  | .encm => asmD2 .encm l.operands
  | .decm => asmD2 .decm l.operands
  | .clr =>
    match l.operands with
    | [.w d] => do return .xor (← asReg d) (← asReg d) (← asReg d)
    | _ => none

/-! ## Reading a line's characters (R101) -/

/-- A mnemonic's letters, in capitals. -/
def Mnemonic.spelling : Mnemonic → List Char
  | .nop => ['N', 'O', 'P']
  | .sbox => ['S', 'B', 'O', 'X']
  | .tau => ['T', 'A', 'U']
  | .lenc => ['L', 'E', 'N', 'C']
  | .lkey => ['L', 'K', 'E', 'Y']
  | .tenc => ['T', 'E', 'N', 'C']
  | .tkey => ['T', 'K', 'E', 'Y']
  | .xor => ['X', 'O', 'R']
  | .rnd => ['R', 'N', 'D']
  | .krnd => ['K', 'R', 'N', 'D']
  | .fkx => ['F', 'K', 'X']
  | .rev => ['R', 'E', 'V']
  | .keyexp => ['K', 'E', 'Y', 'E', 'X', 'P']
  | .enc => ['E', 'N', 'C']
  | .dec => ['D', 'E', 'C']
  | .keyexpm => ['K', 'E', 'Y', 'E', 'X', 'P', 'M']
  | .encm => ['E', 'N', 'C', 'M']
  | .decm => ['D', 'E', 'C', 'M']
  | .clr => ['C', 'L', 'R']

/-- Every mnemonic. -/
def Mnemonic.all : List Mnemonic :=
  [.nop, .sbox, .tau, .lenc, .lkey, .tenc, .tkey, .xor, .rnd, .krnd, .fkx, .rev, .keyexp, .enc, .dec, .keyexpm, .encm,
    .decm, .clr]

/-- A mnemonic, its letters in either case (R101). -/
def readMnemonic (m : List Char) : Option Mnemonic :=
  Mnemonic.all.find? (fun k => k.spelling == m.map Char.toUpper)

/-- The value of one hexadecimal digit. -/
def digitValue (c : Char) : Option Nat :=
  if '0' ≤ c ∧ c ≤ '9' then some (c.toNat - '0'.toNat)
  else if 'a' ≤ c ∧ c ≤ 'f' then some (c.toNat - 'a'.toNat + 10)
  else if 'A' ≤ c ∧ c ≤ 'F' then some (c.toNat - 'A'.toNat + 10)
  else none

/-- Digits in a base, after the value read so far. -/
def readDigits (base : Nat) : Nat → List Char → Option Nat
  | n, [] => some n
  | n, c :: cs => do
    let d ← digitValue c
    if d < base then readDigits base (base * n + d) cs else none

/-- A number: at least one digit, decimal, or hexadecimal after 0x (R101). -/
def readNumber : List Char → Option Nat
  | [] => none
  | '0' :: 'x' :: c :: cs => readDigits 16 0 (c :: cs)
  | cs => readDigits 10 0 cs

/-- A decimal register or quartet number, at least one digit. -/
def readDecimal : List Char → Option Nat
  | [] => none
  | cs => readDigits 10 0 cs

/-- One operand: `w<n>`, `q<n>`, or an immediate (R101). -/
def readOperand : List Char → Option AsmOperand
  | 'w' :: cs => (readDecimal cs).map .w
  | 'q' :: cs => (readDecimal cs).map .q
  | cs => (readNumber cs).map .imm

/-- Splits at a separator. -/
def splitAt (sep : Char) : List Char → List (List Char)
  | [] => [[]]
  | c :: cs =>
    if c = sep then [] :: splitAt sep cs
    else match splitAt sep cs with
      | [] => [[c]]
      | p :: ps => (c :: p) :: ps

/-- A line: a mnemonic, and after a space its operands with a comma between each two (R101). Spaces count only as the
end of the mnemonic (log entry 12). -/
def readLine (line : List Char) : Option AsmLine := do
  let m ← readMnemonic (line.takeWhile (· != ' '))
  let rest := (line.dropWhile (· != ' ')).filter (· != ' ')
  if rest.isEmpty then return ⟨m, []⟩
  return ⟨m, ← (splitAt ',' rest).mapM readOperand⟩

end Sys2Proof
end

