-- ==== Sys2Proof/Machine/State.lean ====
section
/-! DEFINITION. The engine's state (10_state.md R20), the outside world's events still to come (00_scope.md R16,
20_memory.md R76), the stops of a step, and the state right after reset (10_state.md R49, 70_reset_and_hazards.md R241, R242).
Plain data only. -/

namespace Sys2Proof.Machine

/-- Why the machine would stop with a fault. This is not the engine's FAULT bit: every fault of 60_exceptions.md R211 is
a next state. -/
inductive Fault where
  /-- Raised by the BUF operations of Machine/Ops.lean for bytes at or above BUF_BYTES, which do not exist
  (43_context_contract.md R193). Safe. No step reaches it: the checks of the commands and of the port rule it out
  (Obligations.StepNeverStops; log entry 10). -/
  | outsideBuf (a : Nat)
  deriving DecidableEq, Repr

/-- Why a step has no meaning. -/
inductive Refusal where
  /-- Raised by an arm of `exec` whose command has no meaning yet. No arm does. Safe. -/
  | notModelled (mnemonic : String)
  /-- Raised by the step for a host transaction whose offset is no multiple of 4: it cannot be expressed at the port
  (20_memory.md R61; 93_implementation_defined.md I13, treatment `refuse`). Safe (log entry 9). -/
  | hostAccessNotExpressible (off : BitVec 16)
  deriving DecidableEq, Repr

/-- The causes of the engine's FAULT (60_exceptions.md R211); their codes are in Machine/Ops.lean. -/
inductive FaultCause where
  /-- ILLEGAL: an illegal command word. -/
  | illegal
  /-- NOKEY: KV = 0. -/
  | noKey
  /-- BUFSIZE: a source or destination length below 16. -/
  | bufSize
  /-- RANGE: a region not inside BUF. -/
  | range
  /-- ALIAS: source and destination blocks partially overlap. -/
  | partialOverlap
  /-- BUSYWR: a host write, other than to CTRL, while BUSY = 1. -/
  | busyWrite
  deriving DecidableEq, Repr

/-- What the outside world can do to the engine (00_scope.md R16): the two transactions of the port (20_memory.md R61)
and the hardware reset input (70_reset_and_hazards.md R240). -/
inductive Action where
  | read (off : BitVec 16)
  | write (off : BitVec 16) (v : Word)
  | reset
  deriving DecidableEq, Repr

/-- One event of the outside world in the total order of 20_memory.md R76. `early` places it before the engine step
of the command that is pending when its turn comes; otherwise that step goes first. With no command pending the mark
says nothing (log entry 1). -/
structure Event where
  action : Action
  early : Bool
  deriving DecidableEq, Repr

/-- What one HostRead returned. -/
structure Reply where
  off : BitVec 16
  value : Word
  deriving DecidableEq, Repr

/-- The bytes of BUF that something has written, as (offset, byte) pairs with strictly rising offsets.
`Memory.wf` and the operations are in Machine/Ops.lean. -/
abbrev Memory := List Host.Cell

/-- The state: the eleven pieces of R20, then the parameter BUF_BYTES and the model's own three fields. -/
structure State where
  /-- Work registers W0..W15 (R21). -/
  w : Vector Word 16
  /-- Round-key file RK0..RK31 (R23). -/
  rk : Vector Word 32
  /-- KV: RK holds the schedule of some master key (R25). -/
  kv : Bool
  /-- BUSY: a command is pending (R26). -/
  busy : Bool
  /-- PEND: the command word of the last accepted write to CMD (R27). -/
  pend : Word
  /-- KERR: the last key setup failed its size check (R28). -/
  kerr : Bool
  /-- ERRLEN: the length of the last key-size error (R29). -/
  errlen : BitVec 16
  /-- FAULT: a fatal fault has been taken (R30). -/
  fault : Bool
  /-- FCODE: its code (R31, 60_exceptions.md R211). -/
  fcode : BitVec 4
  /-- FINFO: its information (R32). -/
  finfo : Word
  /-- BUF: the bytes written since power-up (R33). -/
  buf : Memory
  /-- The parameter BUF_BYTES (00_scope.md R7): an argument of the model that no step writes (log entry 6). -/
  params : Params
  /-- The outside world's events still to come, oldest first (log entry 1). -/
  events : List Event
  /-- What the host's reads have returned, newest first (log entry 3). -/
  replies : List Reply
  /-- How many ANY32 values have been drawn (20_memory.md R62; log entry 4). -/
  draws : Nat
  deriving DecidableEq, Repr

/-- The state after the first hardware reset, for each BUF_BYTES (R49, R241, R242): every register 0, nothing in BUF
written since power-up, and no event of the outside world yet (log entries 2, 3, 4, 5). -/
def State.resetWith (p : Params) : State where
  w := Vector.replicate 16 0
  rk := Vector.replicate 32 0
  kv := false
  busy := false
  pend := 0
  kerr := false
  errlen := 0
  fault := false
  fcode := 0
  finfo := 0
  buf := []
  params := p
  events := []
  replies := []
  draws := 0

/-- The machine right after reset, at the reference BUF_BYTES (log entry 6). -/
def State.reset : State :=
  State.resetWith Params.reference

end Sys2Proof.Machine
end

