-- ==== Sys2Proof/Machine/Cipher.lean ====
section
/-! DEFINITION. The pure functions of 00_scope.md R14: the S-box and the linear layers (40_primitives.md R120 to R125),
the key schedule (41_key_schedule.md R150 to R152) and the block transform (42_block_transform.md R170, R171). -/

namespace Sys2Proof.Machine.Cipher

/-- `rotl32(x, n)` of R10, for n < 32. -/
def rotl32 (x : Word) (n : Nat) : Word :=
  (x <<< n) ||| (x >>> (32 - n))

/-- One row of R120's table: its 16 entries from column 0 (leftmost) to column F. -/
def sboxRow (hi : Nat) : Nat :=
  match hi with
  | 0x0 => 0xD690E9FECCE13DB716B614C228FB2C05
  | 0x1 => 0x2B679A762ABE04C3AA44132649860699
  | 0x2 => 0x9C4250F491EF987A33540B43EDCFAC62
  | 0x3 => 0xE4B31CA9C908E89580DF94FA758F3FA6
  | 0x4 => 0x4707A7FCF37317BA83593C19E6854FA8
  | 0x5 => 0x686B81B27164DA8BF8EB0F4B70569D35
  | 0x6 => 0x1E240E5E6358D1A225227C3B01217887
  | 0x7 => 0xD40046579FD327524C3602E7A0C4C89E
  | 0x8 => 0xEABF8AD240C738B5A3F7F2CEF96115A1
  | 0x9 => 0xE0AE5DA49B341A55AD933230F58CB1E3
  | 0xA => 0x1DF6E22E8266CA60C02923AB0D534E6F
  | 0xB => 0xD5DB3745DEFD8E2F03FF6A726D6C5B51
  | 0xC => 0x8D1BAF92BBDDBC7F11D95C411F105AD8
  | 0xD => 0x0AC13188A5CD7BBD2D74D012B8E5B4B0
  | 0xE => 0x8969974A0C96777E65B9F109C56EC684
  | _ => 0x18F07DEC3ADC4D2079EE5F3ED7CB3948

/-- The S-box S (R120): the entry at row b[7:4] and column b[3:0]. -/
def S (b : Byte) : Byte :=
  BitVec.ofNat 8 (sboxRow (b.toNat / 16) >>> (8 * (15 - b.toNat % 16)))

/-- substitute (R121): S on each byte, the byte order kept. -/
def tau (x : Word) : Word :=
  wordOfBytes (S (bits x 31 24)) (S (bits x 23 16)) (S (bits x 15 8)) (S (bits x 7 0))

/-- linearEncrypt (R122). -/
def L (b : Word) : Word :=
  b ^^^ rotl32 b 2 ^^^ rotl32 b 10 ^^^ rotl32 b 18 ^^^ rotl32 b 24

/-- linearKeySchedule (R123). -/
def Lk (b : Word) : Word :=
  b ^^^ rotl32 b 13 ^^^ rotl32 b 23

/-- The encryption composite (R124). -/
def T (x : Word) : Word := L (tau x)

/-- The key-schedule composite (R125). -/
def Tk (x : Word) : Word := Lk (tau x)

/-! ## Key schedule -/

/-- FK (R150). -/
def FK : Block := ⟨0xA3B1BAC6, 0x56AA3350, 0x677D9197, 0xB27022DC⟩

/-- CK (R151), CK[0] first. -/
def ckTable : List Word :=
  [0x00070E15, 0x1C232A31, 0x383F464D, 0x545B6269, 0x70777E85, 0x8C939AA1, 0xA8AFB6BD, 0xC4CBD2D9] ++
  [0xE0E7EEF5, 0xFC030A11, 0x181F262D, 0x343B4249, 0x50575E65, 0x6C737A81, 0x888F969D, 0xA4ABB2B9] ++
  [0xC0C7CED5, 0xDCE3EAF1, 0xF8FF060D, 0x141B2229, 0x30373E45, 0x4C535A61, 0x686F767D, 0x848B9299] ++
  [0xA0A7AEB5, 0xBCC3CAD1, 0xD8DFE6ED, 0xF4FB0209, 0x10171E25, 0x2C333A41, 0x484F565D, 0x646B7279]

/-- CK[i] (R151). -/
def CK (i : RoundIndex) : Word :=
  ckTable.getD i.val 0

/-- A quartet XOR FK, the first step of R152. -/
def whiten (k : Block) : Block :=
  ⟨k.x0 ^^^ FK.x0, k.x1 ^^^ FK.x1, k.x2 ^^^ FK.x2, k.x3 ^^^ FK.x3⟩

/-- One round of R152 on the window (K[i], K[i+1], K[i+2], K[i+3]), with CK[i]. -/
def keyRound (k : Block) (ck : Word) : Block :=
  ⟨k.x1, k.x2, k.x3, k.x0 ^^^ Tk (k.x1 ^^^ k.x2 ^^^ k.x3 ^^^ ck)⟩

/-- The subkeys of the rounds with the given constants, from a window: each round's K[i+4]. -/
def subkeys (k : Block) : List Word → List Word
  | [] => []
  | ck :: cks => (keyRound k ck).x3 :: subkeys (keyRound k ck) cks

/-- As many subkeys as rounds. -/
theorem length_subkeys (k : Block) (cks : List Word) : (subkeys k cks).length = cks.length := by
  induction cks generalizing k with
  | nil => rfl
  | cons ck cks ih => simp [subkeys, ih]

/-- expandKey (R152): the 32 round subkeys of a master key. -/
def expandKey (mk : Block) : Vector Word 32 :=
  ⟨(subkeys (whiten mk) ckTable).toArray, by simp [length_subkeys, ckTable]⟩

/-! ## Block transform -/

/-- One round of R170 on the window (X[i], X[i+1], X[i+2], X[i+3]), with subkey[i]. -/
def encRound (x : Block) (sk : Word) : Block :=
  ⟨x.x1, x.x2, x.x3, x.x0 ^^^ T (x.x1 ^^^ x.x2 ^^^ x.x3 ^^^ sk)⟩

/-- The R transform (R170): the four words in reverse order. -/
def reverseWords (x : Block) : Block :=
  ⟨x.x3, x.x2, x.x1, x.x0⟩

/-- transform (R170): one round per subkey, then the R transform. -/
def transform (sk : List Word) (x : Block) : Block :=
  reverseWords (sk.foldl encRound x)

/-- encryptBlock (R171): the forward view of RK. -/
def encryptBlock (rk : Vector Word 32) (x : Block) : Block :=
  transform rk.toList x

/-- decryptBlock (R171): the reverse view of RK. -/
def decryptBlock (rk : Vector Word 32) (x : Block) : Block :=
  transform rk.toList.reverse x

end Sys2Proof.Machine.Cipher
end

