-- ==== Sys2Proof/Machine/Ops.lean ====
section
/-! DEFINITION. The shared operations over registers and BUF (00_scope.md R11, R12), taking a fault
(60_exceptions.md R212), aborting a pending command (R218), and reset, the only way out of a fault
(R216; 70_reset_and_hazards.md R241). -/

namespace Sys2Proof.Machine

/-! ## Registers (R11) -/

/-- `W[i]`. -/
def State.readW (s : State) (r : Reg) : Word :=
  s.w[r]

/-- `W[i] <- v`. -/
def State.writeW (s : State) (r : Reg) (v : Word) : State :=
  { s with w := s.w.set r v }

/-- `RK[i]`. -/
def State.readRK (s : State) (i : RoundIndex) : Word :=
  s.rk[i]

/-! ## BUF (R12) -/

/-- The canonical form: strictly rising offsets, so each written byte stands once, and equal memories are equal lists.
A byte that nothing has written since power-up is not listed (log entry 5). -/
abbrev Memory.wf (m : Memory) : Prop :=
  m.Pairwise (fun x y => x.1 < y.1)

/-- What an unlisted offset holds: no value written since power-up. -/
def Memory.unlisted : Option Byte := none

/-- The byte written at an offset. -/
def Memory.written : Memory → Nat → Option Byte
  | [], _ => Memory.unlisted
  | c :: m, a => if c.1 = a then some c.2 else Memory.written m a

/-- Writes one byte in its place in the list. -/
def Memory.put : Memory → Nat → Byte → Memory
  | [], a, b => [(a, b)]
  | c :: m, a, b =>
    if a < c.1 then (a, b) :: c :: m
    else if a = c.1 then (a, b) :: m
    else c :: Memory.put m a b

/-- `BUF[a]`: what was last written there, else the free value it holds since power-up
(70_reset_and_hazards.md R242, 93_implementation_defined.md I5). -/
def State.bufByte (s : State) (a : Nat) : Byte :=
  (s.buf.written a).getD (Config.bufPowerUp a)

/-- The 32-bit value of R12's MemRead(a, 4), lowest offset most significant. -/
def State.bufWord (s : State) (a : Nat) : Word :=
  wordOfBytes (s.bufByte a) (s.bufByte (a + 1)) (s.bufByte (a + 2)) (s.bufByte (a + 3))

/-- The four words of R12's MemRead(a, 16) (20_memory.md R65, R66). -/
def State.bufBlock (s : State) (a : Nat) : Block :=
  ⟨s.bufWord a, s.bufWord (a + 4), s.bufWord (a + 8), s.bufWord (a + 12)⟩

/-- Writes a word's four bytes, the most significant at the lowest offset (R12). -/
def Memory.putWord (m : Memory) (a : Nat) (v : Word) : Memory :=
  (((m.put a (bits v 31 24)).put (a + 1) (bits v 23 16)).put (a + 2) (bits v 15 8)).put (a + 3) (bits v 7 0)

/-- Writes a block's four words in order (20_memory.md R65). -/
def Memory.putBlock (m : Memory) (a : Nat) (x : Block) : Memory :=
  (((m.putWord a x.x0).putWord (a + 4) x.x1).putWord (a + 8) x.x2).putWord (a + 12) x.x3

/-- Whether the n bytes at a exist: they lie below BUF_BYTES (R33, 43_context_contract.md R193). -/
def State.bytesExist (s : State) (a n : Nat) : Bool :=
  decide (a + n ≤ s.params.bufBytes)

/-- `MemRead(a, 4)`. -/
def State.memRead4 (s : State) (a : Nat) : Except Fault Word :=
  if s.bytesExist a 4 then .ok (s.bufWord a) else .error (.outsideBuf a)

/-- `MemRead(a, 16)`. -/
def State.memRead16 (s : State) (a : Nat) : Except Fault Block :=
  if s.bytesExist a 16 then .ok (s.bufBlock a) else .error (.outsideBuf a)

/-- `MemWrite(a, 4, v)`. -/
def State.memWrite4 (s : State) (a : Nat) (v : Word) : Except Fault State :=
  if s.bytesExist a 4 then .ok { s with buf := s.buf.putWord a v } else .error (.outsideBuf a)

/-- `MemWrite(a, 16, x)`. -/
def State.memWrite16 (s : State) (a : Nat) (x : Block) : Except Fault State :=
  if s.bytesExist a 16 then .ok { s with buf := s.buf.putBlock a x } else .error (.outsideBuf a)

/-! ## Taking a fault, aborting, and the way out -/

/-- The FCODE of a cause (60_exceptions.md R211). -/
def FaultCause.code : FaultCause → BitVec 4
  | .illegal => 1
  | .noKey => 2
  | .bufSize => 3
  | .range => 4
  | .partialOverlap => 5
  | .busyWrite => 6

/-- `raise Fault(code, info)` (60_exceptions.md R212): these four writes and no other. -/
def State.raiseFault (s : State) (cause : FaultCause) (info : Word) : State :=
  { s with fault := true, fcode := cause.code, finfo := info, busy := false }

/-- `AbortPending()` (60_exceptions.md R218): the pending command is discarded and has no effect. Without BUSY the word in
PEND means nothing (10_state.md R27; log entry 8). -/
def State.abortPending (s : State) : State :=
  { s with busy := false }

/-- `Reset()` (70_reset_and_hazards.md R241): every register 0; BUF, and what is not the engine's own, unchanged
(log entry 11). It is also the only way out of FAULT = 1 (60_exceptions.md R216). -/
def State.resetEngine (s : State) : State :=
  { State.resetWith s.params with
    buf := s.buf, events := s.events, replies := s.replies, draws := s.draws }

end Sys2Proof.Machine
end

