-- ==== Sys2Proof/Machine/Operands.lean ====
section
/-! DEFINITION. Operand forms: quartets (10_state.md R22, 30_encoding.md R93), descriptors and the checks made on them
(43_context_contract.md R190, R193, R194, R198). -/

namespace Sys2Proof.Machine

/-- W[4q + j], the j-th register of quartet q (R22). -/
def quartetReg (q : Quartet) (j : Fin 4) : Reg :=
  ⟨4 * q.val + j.val, by omega⟩

/-- The four words of a quartet, in order (R22). -/
def State.readQ (s : State) (q : Quartet) : Block :=
  ⟨s.readW (quartetReg q 0), s.readW (quartetReg q 1), s.readW (quartetReg q 2), s.readW (quartetReg q 3)⟩

/-- Writes the four words of a quartet, in order. -/
def State.writeQ (s : State) (q : Quartet) (x : Block) : State :=
  (((s.writeW (quartetReg q 0) x.x0).writeW (quartetReg q 1) x.x1).writeW (quartetReg q 2) x.x2).writeW
    (quartetReg q 3) x.x3

/-- A region of BUF (R190): its length in bytes and the offset of its first byte. -/
structure Descriptor where
  len : BitVec 16
  off : Nat
  deriving DecidableEq, Repr

/-- The descriptor a word holds (R190): len = v[31:16], off = v[15:0]. -/
def descriptorOf (v : Word) : Descriptor :=
  ⟨bits v 31 16, (bits v 15 0).toNat⟩

/-- The descriptor a register names. -/
def State.descriptor (s : State) (r : Reg) : Descriptor :=
  descriptorOf (s.readW r)

/-- `InRange(off, len)` (R193): an exact sum, with no wrap. -/
def State.inRange (s : State) (off len : Nat) : Bool :=
  decide (off + len ≤ s.params.bufBytes)

/-- `InexactOverlap(soff, doff)` (R194). -/
def inexactOverlap (soff doff : Nat) : Bool :=
  soff != doff && decide (((soff : Int) - (doff : Int)).natAbs < 16)

/-- `CheckBlockCall` (R198): the first check that fails, in this order; none when all hold. -/
def State.checkBlockCall (s : State) (dst src : Descriptor) : Option FaultCause :=
  if s.kv = false then some .noKey
  else if src.len.toNat < 16 then some .bufSize
  else if dst.len.toNat < 16 then some .bufSize
  else if s.inRange src.off src.len.toNat = false then some .range
  else if s.inRange dst.off dst.len.toNat = false then some .range
  else if inexactOverlap src.off dst.off then some .partialOverlap
  else none

end Sys2Proof.Machine
end

