-- ==== Sys2Proof/Machine/Flags.lean ====
section
/-! DEFINITION. The STATUS flags and who writes them (10_state.md R25 to R29, R38, R50). The engine has no condition codes. -/

namespace Sys2Proof.Machine

/-- STATUS = zext_32(FCODE || FAULT || KERR || KV || BUSY) (R38). -/
def State.statusWord (s : State) : Word :=
  (s.fcode ++ BitVec.ofBool s.fault ++ BitVec.ofBool s.kerr ++ BitVec.ofBool s.kv ++ BitVec.ofBool s.busy).setWidth 32

/-- Completion of a command (30_encoding.md R96, R50): BUSY <- 0. -/
def State.complete (s : State) : State :=
  { s with busy := false }

/-- A key setup that succeeds (R156, R192): all of RK at once, KV <- 1, KERR <- 0. ERRLEN stays (R29). -/
def State.setContext (s : State) (rk : Vector Word 32) : State :=
  { s with rk := rk, kv := true, kerr := false }

/-- The key-size error (43_context_contract.md R195): KERR <- 1, ERRLEN <- len; RK and KV stay. -/
def State.keySizeError (s : State) (len : BitVec 16) : State :=
  { s with kerr := true, errlen := len }

end Sys2Proof.Machine
end

