-- ==== Sys2Proof/Machine/BlockTransform.lean ====
section
/-! DEFINITION. The block-transform commands RND, REV, ENC, DEC (42_block_transform.md R173 to R176). -/

namespace Sys2Proof.Machine

/-- RND (R173): one encryption round, the subkey in a register. RK and KV are not read. -/
def execRnd (qd : Quartet) (ws : Reg) (s : State) : Host.Outcome State Fault Refusal :=
  .next (s.writeQ qd (Cipher.encRound (s.readQ qd) (s.readW ws))).complete

/-- REV (R174): the four words in reverse order. -/
def execRev (qd : Quartet) (s : State) : Host.Outcome State Fault Refusal :=
  .next (s.writeQ qd (Cipher.reverseWords (s.readQ qd))).complete

/-- The shape of ENC and DEC: NOKEY when KV = 0, else f under the context, from quartet qs into quartet qd. -/
def State.quartetCall (s : State) (f : Vector Word 32 → Block → Block) (qd qs : Quartet) : State :=
  if s.kv then (s.writeQ qd (f s.rk (s.readQ qs))).complete else s.raiseFault .noKey s.pend

/-- ENC (R175). -/
def execEnc (qd qs : Quartet) (s : State) : Host.Outcome State Fault Refusal :=
  .next (s.quartetCall Cipher.encryptBlock qd qs)

/-- DEC (R176). -/
def execDec (qd qs : Quartet) (s : State) : Host.Outcome State Fault Refusal :=
  .next (s.quartetCall Cipher.decryptBlock qd qs)

end Sys2Proof.Machine
end

