-- ==== Sys2Proof/Machine/Context.lean ====
section
/-! DEFINITION. The cipher context's commands NOP, KEYEXPM, ENCM, DECM (43_context_contract.md R191, R192, R196, R197). -/

namespace Sys2Proof.Machine

/-- NOP (R191): completion and nothing else. -/
def execNop (s : State) : Host.Outcome State Fault Refusal :=
  .next s.complete

/-- KEYEXPM (R192): the size check, then the range check, then the key setup from 16 bytes of BUF. -/
def execKeyexpm (wk : Reg) (s : State) : Host.Outcome State Fault Refusal :=
  if (s.descriptor wk).len.toNat ≠ 16 then
    .next (s.keySizeError (s.descriptor wk).len).complete
  else if s.inRange (s.descriptor wk).off 16 = false then
    .next (s.raiseFault .range s.pend)
  else
    match s.memRead16 (s.descriptor wk).off with
    | .ok k => .next (s.setContext (Cipher.expandKey k)).complete
    | .error e => .fault e

/-- The shape of ENCM and DECM: the ordered checks of R198, then f under the context, from the 16 bytes at the source
offset to the first 16 bytes of the destination (R71). -/
def State.bufferCall (s : State) (f : Vector Word 32 → Block → Block) (dst src : Descriptor) :
    Host.Outcome State Fault Refusal :=
  match s.checkBlockCall dst src with
  | some cause => .next (s.raiseFault cause s.pend)
  | none =>
    match s.memRead16 src.off with
    | .error e => .fault e
    | .ok x =>
      match s.memWrite16 dst.off (f s.rk x) with
      | .error e => .fault e
      | .ok t => .next t.complete

/-- ENCM (R196). -/
def execEncm (wdst wsrc : Reg) (s : State) : Host.Outcome State Fault Refusal :=
  s.bufferCall Cipher.encryptBlock (s.descriptor wdst) (s.descriptor wsrc)

/-- DECM (R197). -/
def execDecm (wdst wsrc : Reg) (s : State) : Host.Outcome State Fault Refusal :=
  s.bufferCall Cipher.decryptBlock (s.descriptor wdst) (s.descriptor wsrc)

end Sys2Proof.Machine
end

