-- ==== Sys2Proof/Machine/KeySchedule.lean ====
section
/-! DEFINITION. The key-schedule commands FKX, KRND, KEYEXP (41_key_schedule.md R154 to R156). -/

namespace Sys2Proof.Machine

/-- FKX (R154): `W[4q+j] <- W[4q+j] ^ FK[j]`, j = 0..3. -/
def execFkx (qd : Quartet) (s : State) : Host.Outcome State Fault Refusal :=
  .next (s.writeQ qd (Cipher.whiten (s.readQ qd))).complete

/-- KRND (R155): one round of the key schedule with CK[i]. -/
def execKrnd (qd : Quartet) (i : RoundIndex) (s : State) : Host.Outcome State Fault Refusal :=
  .next (s.writeQ qd (Cipher.keyRound (s.readQ qd) (Cipher.CK i))).complete

/-- KEYEXP (R156): RK <- expandKey(quartet), KV <- 1, KERR <- 0. -/
def execKeyexp (qs : Quartet) (s : State) : Host.Outcome State Fault Refusal :=
  .next (s.setContext (Cipher.expandKey (s.readQ qs))).complete

end Sys2Proof.Machine
end

