-- ==== Sys2Proof/Machine/Primitives.lean ====
section
/-! DEFINITION. The substitution-permutation commands SBOX, TAU, LENC, LKEY, TENC, TKEY, XOR (40_primitives.md R127 to R133).
They read no RK, KV or BUF, and their only fault is ILLEGAL, which the decoder raises. -/

namespace Sys2Proof.Machine

/-- `W[wd] <- f(W[ws])` and completion: the shape of the six commands of format R2. -/
def State.unary (s : State) (f : Word → Word) (wd ws : Reg) : State :=
  (s.writeW wd (f (s.readW ws))).complete

/-- SBOX (R127): `b <- W[ws][7:0]; W[wd] <- zext_32(S(b))`. -/
def execSbox (wd ws : Reg) (s : State) : Host.Outcome State Fault Refusal :=
  .next (s.unary (fun x => (Cipher.S (bits x 7 0)).setWidth 32) wd ws)

/-- TAU (R128): `W[wd] <- tau(W[ws])`. -/
def execTau (wd ws : Reg) (s : State) : Host.Outcome State Fault Refusal :=
  .next (s.unary Cipher.tau wd ws)

/-- LENC (R129): `W[wd] <- L(W[ws])`. -/
def execLenc (wd ws : Reg) (s : State) : Host.Outcome State Fault Refusal :=
  .next (s.unary Cipher.L wd ws)

/-- LKEY (R130): `W[wd] <- Lk(W[ws])`. -/
def execLkey (wd ws : Reg) (s : State) : Host.Outcome State Fault Refusal :=
  .next (s.unary Cipher.Lk wd ws)

/-- TENC (R131): `W[wd] <- L(tau(W[ws]))`. -/
def execTenc (wd ws : Reg) (s : State) : Host.Outcome State Fault Refusal :=
  .next (s.unary Cipher.T wd ws)

/-- TKEY (R132): `W[wd] <- Lk(tau(W[ws]))`. -/
def execTkey (wd ws : Reg) (s : State) : Host.Outcome State Fault Refusal :=
  .next (s.unary Cipher.Tk wd ws)

/-- XOR (R133): `W[wd] <- W[ws1] ^ W[ws2]`. -/
def execXor (wd ws1 ws2 : Reg) (s : State) : Host.Outcome State Fault Refusal :=
  .next (s.writeW wd (s.readW ws1 ^^^ s.readW ws2)).complete

end Sys2Proof.Machine
end

