-- ==== Sys2Proof/Machine/Dispatch.lean ====
section
/-! DEFINITION. One arm per command: `Execute_ins` of 30_encoding.md R96. -/

namespace Sys2Proof.Machine

def exec (i : Instr) (s : State) : Host.Outcome State Fault Refusal :=
  match i with
  | .nop => Sys2Proof.Machine.execNop s
  | .sbox wd ws => Sys2Proof.Machine.execSbox wd ws s
  | .tau wd ws => Sys2Proof.Machine.execTau wd ws s
  | .lenc wd ws => Sys2Proof.Machine.execLenc wd ws s
  | .lkey wd ws => Sys2Proof.Machine.execLkey wd ws s
  | .tenc wd ws => Sys2Proof.Machine.execTenc wd ws s
  | .tkey wd ws => Sys2Proof.Machine.execTkey wd ws s
  | .xor wd ws1 ws2 => Sys2Proof.Machine.execXor wd ws1 ws2 s
  | .rnd qd ws => Sys2Proof.Machine.execRnd qd ws s
  | .krnd qd k => Sys2Proof.Machine.execKrnd qd k s
  | .fkx qd => Sys2Proof.Machine.execFkx qd s
  | .rev qd => Sys2Proof.Machine.execRev qd s
  | .keyexp qs => Sys2Proof.Machine.execKeyexp qs s
  | .enc qd qs => Sys2Proof.Machine.execEnc qd qs s
  | .dec qd qs => Sys2Proof.Machine.execDec qd qs s
  | .keyexpm wk => Sys2Proof.Machine.execKeyexpm wk s
  | .encm wdst wsrc => Sys2Proof.Machine.execEncm wdst wsrc s
  | .decm wdst wsrc => Sys2Proof.Machine.execDecm wdst wsrc s

end Sys2Proof.Machine
end

