-- ==== Sys2Proof/Machine/Port.lean ====
section
/-! DEFINITION. The host port (10_state.md R36 to R48; 20_memory.md R61 to R64, R67): what a HostRead returns and what a
HostWrite does. -/

namespace Sys2Proof.Machine

/-- ID (R37). -/
def idWord : Word := 0x534D3401

/-- The offset lies in the W window (R45). -/
abbrev inWWindow (o : Nat) : Prop := 0x0040 ≤ o ∧ o ≤ 0x007C

/-- The offset lies in the RK window (R46). -/
abbrev inRKWindow (o : Nat) : Prop := 0x0080 ≤ o ∧ o ≤ 0x00FC

/-- The offset lies in the BUF window (R47). -/
abbrev inBufWindow (p : Params) (o : Nat) : Prop := 0x1000 ≤ o ∧ o ≤ 0x1000 + p.bufBytes - 4

/-- Reading this offset returns ANY32 now (R62): it lies in the W, RK or BUF window and BUSY = 1. -/
def State.readsAny (s : State) (off : BitVec 16) : Bool :=
  s.busy && decide (inWWindow off.toNat ∨ inRKWindow off.toNat ∨ inBufWindow s.params off.toNat)

/-- `HostRead(off)` (R62): the word it returns. ANY32 is the next free value. -/
def State.hostRead (s : State) (off : BitVec 16) : Except Fault Word :=
  let o := off.toNat
  if o = 0x0000 then .ok idWord
  else if o = 0x0004 then .ok s.statusWord
  else if o = 0x0008 ∨ o = 0x000C then .ok 0
  else if o = 0x0010 then .ok (s.errlen.setWidth 32)
  else if o = 0x0014 then .ok s.finfo
  else if o = 0x0018 then .ok (BitVec.ofNat 32 s.params.bufBytes)
  else if o = 0x001C then .ok 16
  else if inWWindow o then
    if s.busy then .ok (Config.any32 s.draws) else .ok (s.readW (Fin.ofNat 16 ((o - 0x0040) / 4)))
  else if inRKWindow o then
    if s.busy then .ok (Config.any32 s.draws) else .ok (s.readRK (Fin.ofNat 32 ((o - 0x0080) / 4)))
  else if inBufWindow s.params o then
    if s.busy then .ok (Config.any32 s.draws) else s.memRead4 (o - 0x1000)
  else .ok 0

/-- The host has its word. No state of the engine changes (R62): only the model's record of replies, and of the free
values drawn. -/
def State.replied (s : State) (off : BitVec 16) (v : Word) : State :=
  { s with replies := ⟨off, v⟩ :: s.replies, draws := if s.readsAny off then s.draws + 1 else s.draws }

/-- An accepted write to CMD (R40): PEND <- v, BUSY <- 1. -/
def State.acceptCommand (s : State) (v : Word) : State :=
  { s with pend := v, busy := true }

/-- `HostWrite(off, v)` (R63), its cases in the rule's order. -/
def State.hostWrite (s : State) (off : BitVec 16) (v : Word) : Except Fault State :=
  let o := off.toNat
  if o = 0x0008 then .ok (if v.getLsbD 0 then s.resetEngine else s)
  else if s.fault then .ok s
  else if s.busy then .ok (s.abortPending.raiseFault .busyWrite (off.setWidth 32))
  else if o = 0x000C then .ok (s.acceptCommand v)
  else if inWWindow o then .ok (s.writeW (Fin.ofNat 16 ((o - 0x0040) / 4)) v)
  else if inBufWindow s.params o then s.memWrite4 (o - 0x1000) v
  else .ok s

end Sys2Proof.Machine
end

