-- ==== Sys2Proof/Machine/Engine.lean ====
section
/-! DEFINITION. Who moves next and what that does (00_scope.md R16, 20_memory.md R76): the engine step
(30_encoding.md R96), or the next event of the outside world. -/

namespace Sys2Proof.Machine

/-- `EngineStep()` (R96): decode PEND and execute it, or fault on an illegal word (R98). -/
def engineStep (s : State) : Host.Outcome State Fault Refusal :=
  match decode s.pend with
  | .error _ => .next (s.raiseFault .illegal s.pend)
  | .ok i => exec i s

/-- Whether an action can be expressed at the port: its offset is a multiple of 4 (20_memory.md R61). -/
def Action.expressible : Action → Bool
  | .read off => off.toNat % 4 == 0
  | .write off _ => off.toNat % 4 == 0
  | .reset => true

/-- One action of the outside world (R62, R63, R241). -/
def takeAction (a : Action) (s : State) : Host.Outcome State Fault Refusal :=
  match a with
  | .reset => .next s.resetEngine
  | .read off =>
    if off.toNat % 4 = 0 then
      match s.hostRead off with
      | .ok v => .next (s.replied off v)
      | .error e => .fault e
    else .refused (.hostAccessNotExpressible off)
  | .write off v =>
    if off.toNat % 4 = 0 then
      match s.hostWrite off v with
      | .ok t => .next t
      | .error e => .fault e
    else .refused (.hostAccessNotExpressible off)

/-- The engine moves next: a command is pending (R96: enabled when, and only when, BUSY = 1) and no event is marked to
come before its step. -/
def State.engineNext (s : State) : Bool :=
  s.busy && match s.events with
    | [] => true
    | e :: _ => !e.early

/-- The next event of the total order (R76). With nothing pending and no event to come the engine waits
(70_reset_and_hazards.md R243). -/
def advance (s : State) : Host.Outcome State Fault Refusal :=
  if s.engineNext then engineStep s
  else match s.events with
    | [] => .next s
    | e :: rest => takeAction e.action { s with events := rest }

/-! ## A host's script (30_encoding.md R101) -/

/-- `WR off, v`. -/
def wr (off : BitVec 16) (v : Word) : Event := ⟨.write off v, false⟩

/-- `RD off`. -/
def rd (off : BitVec 16) : Event := ⟨.read off, false⟩

/-- `CMD <instruction>`: a write of its word to CMD. -/
def cmd (i : Instr) : Event := wr 0x000C (encode i)

/-- `POLL`: reads STATUS until BUSY is 0. The event is not `early`, so the pending command's step goes first, and one
read finds BUSY = 0. -/
def poll : Event := rd 0x0004

end Sys2Proof.Machine
end

