-- ==== Sys2Proof/Machine/Step.lean ====
section
/-! DEFINITION. One step of the machine, and how a command word is placed where the next step reads it. -/

namespace Sys2Proof.Machine

/-- One step: the next event of 20_memory.md R76. -/
def step (s : State) : Host.Outcome State Fault Refusal :=
  advance s

/-- The state in which a command word is pending and the engine moves next: PEND holds the word and BUSY = 1, as after
an accepted write to CMD (10_state.md R40), and the next event of the outside world, if there is one, waits for the engine
step (log entry 2). -/
def State.withFetchWord (s : State) (nbits w : Nat) : State :=
  { s with
    pend := BitVec.ofNat 32 (w % 2 ^ nbits)
    busy := true
    events := match s.events with
      | [] => []
      | e :: rest => { e with early := false } :: rest }

end Sys2Proof.Machine
end

