-- ==== Sys2Proof/Safety.lean ====
section
/-! DEFINITION. The terms the statements use: whose turn it is, what a command may change (frames), and the invariant of the
engine's state. -/

namespace Sys2Proof.Machine

/-- The engine step is enabled (BUSY = 1, 30_encoding.md R96), and no event of the outside world comes before it. -/
structure EnginesTurn (s : State) : Prop where
  busy : s.busy = true
  notEarly : ∀ e rest, s.events = e :: rest → e.early = false

/-- A word and a command belong together: the decoder reads this command from this word and from no other. -/
def EncodedAs (i : Instr) (w : Word) : Prop :=
  ∀ c, decode c = .ok i ↔ c = w

/-- A word that no command has: its engine step faults with ILLEGAL (30_encoding.md R98). -/
def IllegalWord (c : Word) : Prop :=
  ∀ i, decode c ≠ .ok i

/-- The commands of a list, one after another, each from the state the one before left. -/
def execAll : List Instr → State → Host.Outcome State Fault Refusal
  | [], s => .next s
  | i :: is, s =>
    match exec i s with
    | .next t => execAll is t
    | .fault e => .fault e
    | .refused r => .refused r

/-- One RND per subkey, each subkey written to W[ws] before its RND, as a host does (42_block_transform.md R173). -/
def rndAll (qd : Quartet) (ws : Reg) : List Word → State → Host.Outcome State Fault Refusal
  | [], s => .next s
  | k :: ks, s =>
    match exec (.rnd qd ws) (s.writeW ws k) with
    | .next t => rndAll qd ws ks t
    | .fault e => .fault e
    | .refused r => .refused r

/-! ## Frames: what is left as it was -/

/-- The words in W are as they were. -/
def SameW (s t : State) : Prop :=
  ∀ r, t.readW r = s.readW r

/-- Every byte of BUF reads as it did. -/
def SameBuf (s t : State) : Prop :=
  ∀ a, t.bufByte a = s.bufByte a

/-- The context (RK, KV) is as it was (10_state.md R24). -/
structure SameContext (s t : State) : Prop where
  rk : t.rk = s.rk
  kv : t.kv = s.kv

/-- KERR and ERRLEN are as they were. -/
structure SameKeyError (s t : State) : Prop where
  kerr : t.kerr = s.kerr
  errlen : t.errlen = s.errlen

/-- FAULT, FCODE and FINFO are as they were. -/
structure SameFault (s t : State) : Prop where
  fault : t.fault = s.fault
  fcode : t.fcode = s.fcode
  finfo : t.finfo = s.finfo

/-- PEND, the parameter, and the outside world's events and replies are as they were. -/
structure SameRest (s t : State) : Prop where
  pend : t.pend = s.pend
  params : t.params = s.params
  events : t.events = s.events
  replies : t.replies = s.replies
  draws : t.draws = s.draws

/-- The engine's state (R20) is as it was, whatever the outside world has done or been told. -/
structure SameEngine (s t : State) : Prop where
  w : SameW s t
  context : SameContext s t
  keyError : SameKeyError s t
  fault : SameFault s t
  buf : SameBuf s t
  busy : t.busy = s.busy
  pend : t.pend = s.pend
  params : t.params = s.params

/-- A command completed (BUSY = 0), and nothing but W may have changed. -/
structure OnlyWChanges (s t : State) : Prop where
  busy : t.busy = false
  context : SameContext s t
  keyError : SameKeyError s t
  fault : SameFault s t
  buf : SameBuf s t
  rest : SameRest s t

/-- A command completed: W[wd] = v, and nothing else changed. -/
structure RegisterWritten (s t : State) (wd : Reg) (v : Word) : Prop where
  result : t.readW wd = v
  otherW : ∀ r, r ≠ wd → t.readW r = s.readW r
  frame : OnlyWChanges s t

/-- A command completed: quartet qd holds x, and nothing else changed. -/
structure QuartetWritten (s t : State) (qd : Quartet) (x : Block) : Prop where
  result : t.readQ qd = x
  otherW : ∀ r : Reg, r.val / 4 ≠ qd.val → t.readW r = s.readW r
  frame : OnlyWChanges s t

/-- A key setup completed: RK holds the schedule, KV = 1, KERR = 0, and nothing else changed
(41_key_schedule.md R156, 43_context_contract.md R192). -/
structure ContextSet (s t : State) (rk : Vector Word 32) : Prop where
  rk : t.rk = rk
  kv : t.kv = true
  kerr : t.kerr = false
  errlen : t.errlen = s.errlen
  busy : t.busy = false
  w : SameW s t
  fault : SameFault s t
  buf : SameBuf s t
  rest : SameRest s t

/-- A key-size error (43_context_contract.md R195): KERR = 1, ERRLEN = len, and nothing else changed. -/
structure KeySizeErrorTaken (s t : State) (len : BitVec 16) : Prop where
  kerr : t.kerr = true
  errlen : t.errlen = len
  busy : t.busy = false
  w : SameW s t
  context : SameContext s t
  fault : SameFault s t
  buf : SameBuf s t
  rest : SameRest s t

/-- A block command on BUF completed: the 16 bytes at a hold x, and no other byte and nothing else changed. -/
structure BlockStored (s t : State) (a : Nat) (x : Block) : Prop where
  result : t.bufBlock a = x
  otherBytes : ∀ b, ¬(a ≤ b ∧ b < a + 16) → t.bufByte b = s.bufByte b
  busy : t.busy = false
  w : SameW s t
  context : SameContext s t
  keyError : SameKeyError s t
  fault : SameFault s t
  rest : SameRest s t

/-- A host word was written to BUF at a: its four bytes, the most significant first (20_memory.md R67), and no other
byte and nothing else changed. -/
structure WordStored (s t : State) (a : Nat) (v : Word) : Prop where
  byte0 : t.bufByte a = bits v 31 24
  byte1 : t.bufByte (a + 1) = bits v 23 16
  byte2 : t.bufByte (a + 2) = bits v 15 8
  byte3 : t.bufByte (a + 3) = bits v 7 0
  otherBytes : ∀ b, ¬(a ≤ b ∧ b < a + 4) → t.bufByte b = s.bufByte b
  busy : t.busy = s.busy
  w : SameW s t
  context : SameContext s t
  keyError : SameKeyError s t
  fault : SameFault s t
  rest : SameRest s t

/-- A fault was taken (60_exceptions.md R212): its four writes, and nothing else changed (R213). -/
structure FaultTaken (s t : State) (code : BitVec 4) (info : Word) : Prop where
  fault : t.fault = true
  fcode : t.fcode = code
  finfo : t.finfo = info
  busy : t.busy = false
  w : SameW s t
  context : SameContext s t
  keyError : SameKeyError s t
  buf : SameBuf s t
  rest : SameRest s t

/-- The engine is in its reset state (10_state.md R49), with BUF and what is not the engine's as in s. -/
structure ResetTaken (s t : State) : Prop where
  w : ∀ r, t.readW r = 0
  rk : ∀ i, t.readRK i = 0
  kv : t.kv = false
  busy : t.busy = false
  pend : t.pend = 0
  kerr : t.kerr = false
  errlen : t.errlen = 0
  fault : t.fault = false
  fcode : t.fcode = 0
  finfo : t.finfo = 0
  buf : SameBuf s t
  params : t.params = s.params

/-! ## The checks of ENCM and DECM, clause by clause (43_context_contract.md R198) -/

/-- Every check of R198 holds for these lengths and offsets. -/
structure BlockCallOk (s : State) (dst src : Descriptor) : Prop where
  key : s.kv = true
  srcLen : 16 ≤ src.len.toNat
  dstLen : 16 ≤ dst.len.toNat
  srcRange : src.off + src.len.toNat ≤ s.params.bufBytes
  dstRange : dst.off + dst.len.toNat ≤ s.params.bufBytes
  apart : src.off = dst.off ∨ src.off + 16 ≤ dst.off ∨ dst.off + 16 ≤ src.off

/-! ## The S-box's construction and the CK rule, as the spec gives them beside the tables -/

/-- Multiplication in GF(2^8) modulo x^8+x^7+x^6+x^5+x^4+x^2+1 (0x1F5; 40_primitives.md R120), over the low n bits of b. -/
def gfMul (a b : Byte) : Nat → Byte
  | 0 => 0
  | n + 1 =>
    let r := gfMul a (b >>> 1) n
    let doubled := if r.getLsbD 7 then (r <<< 1) ^^^ 0xF5 else r <<< 1
    if b.getLsbD 0 then doubled ^^^ a else doubled

/-- The parity of a byte's bits. -/
def parity (x : Byte) : Bool :=
  (List.range 8).foldl (fun p k => p ^^ x.getLsbD k) false

/-- The linear map A of R120: output bit i is the parity of x & rotl8(0xA7, i). -/
def affineMap (x : Byte) : Byte :=
  (List.range 8).foldl (fun acc i => if parity (x &&& (0xA7#8).rotateLeft i) then acc ||| (1#8 <<< i) else acc) 0

/-- R151's rule: byte j of CK[i] is (7 * (4i + j)) mod 256. -/
def ckByte (i j : Nat) : Byte :=
  BitVec.ofNat 8 ((7 * (4 * i + j)) % 256)

/-! ## The invariant -/

/-- What holds in every state a run from reset can reach. -/
structure State.Inv (s : State) : Prop where
  /-- 30_encoding.md R99: BUSY = 1 and FAULT = 1 never hold together. -/
  notBusyAndFaulted : ¬(s.busy = true ∧ s.fault = true)
  /-- 10_state.md R31, R32: FCODE and FINFO are 0 while FAULT = 0. -/
  quietWithoutFault : s.fault = false → s.fcode = 0 ∧ s.finfo = 0
  /-- 10_state.md R31, 60_exceptions.md R211: with FAULT = 1 the code is one of 1..6. -/
  codeOfFault : s.fault = true → 1 ≤ s.fcode.toNat ∧ s.fcode.toNat ≤ 6
  /-- 10_state.md R25: with KV = 1, RK is the schedule of some master key. -/
  contextIsSchedule : s.kv = true → ∃ mk, s.rk = Cipher.expandKey mk
  /-- 10_state.md R23, R25, R49: with KV = 0, RK is as reset left it. -/
  emptyContext : s.kv = false → ∀ i, s.readRK i = 0
  /-- 43_context_contract.md R195: the length that failed is not 16. -/
  failedLength : s.kerr = true → s.errlen.toNat ≠ 16
  /-- BUF's list is in its canonical form. -/
  bufCanonical : s.buf.wf
  /-- 43_context_contract.md R193: no byte at or above BUF_BYTES was ever written. -/
  bufInside : ∀ c ∈ s.buf, c.1 < s.params.bufBytes

end Sys2Proof.Machine
end

