-- ==== Sys2Proof/Certificates/Slice0/Obligations.lean ====
section
/-! DEFINITION. The statements for the provers. Each docstring names the rule of spec/ it formalises. The frames of
Sys2Proof/Safety.lean also say that the model's own fields (params, events, replies, draws) are as they were: that part of a
statement is the model's choice (log entries 1, 3, 4, 6), and no rule is cited for it. -/

open Sys2Proof Sys2Proof.Machine

/-! ## Encoding (30_encoding.md) -/

/-- The example words of R101, written out from R91 to R95, decode to the commands they stand for. -/
def Obligations.ExampleWordsDecode : Prop :=
  decode 0x01000000 = .ok .nop ∧ decode 0x11370000 = .ok (.tau 3 7) ∧ decode 0x16123000 = .ok (.xor 1 2 3) ∧
  decode 0x23400000 = .ok (.rev 1) ∧ decode 0x2000F000 = .ok (.rnd 0 15) ∧ decode 0x2180001F = .ok (.krnd 2 31) ∧
  decode 0x31400000 = .ok (.enc 1 0) ∧ decode 0x300C0000 = .ok (.keyexp 3) ∧ decode 0x40050000 = .ok (.keyexpm 5) ∧
  decode 0x41010000 = .ok (.encm 1 0)

/-- R92, R93, R94, R95, R103: decoding the word of any command, with any operands, gives that command back. -/
def Obligations.DecodeOfEncode : Prop :=
  ∀ i : Instr, decode (encode i) = .ok i

/-- R98, R103: a word that decodes to a command is that command's word, so no two words share a command. -/
def Obligations.EncodeOfDecode : Prop :=
  ∀ (c : Word) (i : Instr), decode c = .ok i → encode i = c

/-- R103: the decoder finds a word's command exactly where one row of the table of masks and matches matches it, and no
word matches two rows. -/
def Obligations.DecoderFollowsOpcodeTable : Prop :=
  ∀ c : Word,
    (∀ i, decode c = .ok i → (opcodeTable.filter (·.matchesWord c)).map TableRow.mnemonic = [i.mnemonic]) ∧
    (IllegalWord c → opcodeTable.filter (·.matchesWord c) = [])

/-- R98: a word is illegal exactly when its opcode is not one of the 18, or one of its format's zero bits is 1; equivalently,
when no row of the opcode table matches it; and its engine step raises Fault(1, c) with no other effect. -/
def Obligations.IllegalWordsFault : Prop :=
  (∀ c : Word, IllegalWord c ↔ ∀ f, formatOf (opField c) = some f → f.zerosHold c = false) ∧
  (∀ c : Word, IllegalWord c ↔ ∀ r ∈ opcodeTable, c &&& r.mask ≠ r.word) ∧
  IllegalWord 0x00000000 ∧ IllegalWord 0xFFFFFFFF ∧
  ∀ s : State, EnginesTurn s → IllegalWord s.pend → ∃ t, step s = .next t ∧ FaultTaken s t 1 s.pend

/-- R101, R102, R93, R94: the assembler takes a line exactly when it is well formed. -/
def Obligations.AssemblesExactlyWellFormedLines : Prop :=
  ∀ l : AsmLine, (assemble l).isSome = l.wellFormed

/-- R102: each pseudo-instruction is its expansion, and CLR leaves 0. -/
def Obligations.PseudoInstructionsExpand : Prop :=
  (∀ n, assemble ⟨.clr, [.w n]⟩ = assemble ⟨.xor, [.w n, .w n, .w n]⟩) ∧
  (∀ n, assemble ⟨.enc, [.q n]⟩ = assemble ⟨.enc, [.q n, .q n]⟩) ∧
  (∀ n, assemble ⟨.dec, [.q n]⟩ = assemble ⟨.dec, [.q n, .q n]⟩) ∧
  (∀ n, assemble ⟨.encm, [.w n]⟩ = assemble ⟨.encm, [.w n, .w n]⟩) ∧
  (∀ n, assemble ⟨.decm, [.w n]⟩ = assemble ⟨.decm, [.w n, .w n]⟩) ∧
  ∀ (wd : Reg) (s : State), assemble ⟨.clr, [.w wd.val]⟩ = some (.xor wd wd wd) ∧
    ∃ t, exec (.xor wd wd wd) s = .next t ∧ RegisterWritten s t wd 0

/-! ## The step (R96, 20_memory.md R76) -/

/-- R96: when the engine moves next and PEND decodes to i, the step is exec of i, with nothing around it. -/
def Obligations.StepRunsPendingCommand : Prop :=
  ∀ (s : State) (i : Instr), EnginesTurn s → decode s.pend = .ok i → step s = exec i s

/-- The host's placement of a command word (log entry 2): the very next step is exec of that command. -/
def Obligations.PlacedWordRunsNext : Prop :=
  ∀ (s : State) (i : Instr),
    step (s.withFetchWord 32 (encode i).toNat) = exec i (s.withFetchWord 32 (encode i).toNat)

/-- R76, R96, 70_reset_and_hazards.md R243: when it is not the engine's turn, the next event of the outside world happens;
with none to come the engine waits (the events to come are the model's own field, log entry 1). -/
def Obligations.OutsideEventsHappenInOrder : Prop :=
  ∀ s : State, ¬EnginesTurn s →
    (∀ e rest, s.events = e :: rest → step s = takeAction e.action { s with events := rest }) ∧
    (s.events = [] → s.busy = false ∧ step s = .next s)

/-- The machine's stops: a step answers a next state whenever the next event can be expressed at the port (20_memory.md R61),
so no command and no transaction touches a byte outside BUF (43_context_contract.md R193). -/
def Obligations.StepNeverStops : Prop :=
  ∀ s : State, (∀ e rest, s.events = e :: rest → e.action.expressible = true) → ∃ t, step s = .next t

/-- 93_implementation_defined.md I13: a transaction whose offset is no multiple of 4 is refused (the refusal is the model's
form of the entry's `refuse`, log entry 9). -/
def Obligations.MisalignedTransactionRefused : Prop :=
  ∀ (s : State) (e : Event) (rest : List Event) (off : BitVec 16),
    ¬EnginesTurn s → s.events = e :: rest → (e.action = .read off ∨ ∃ v, e.action = .write off v) →
    off.toNat % 4 ≠ 0 → step s = .refused (.hostAccessNotExpressible off)

/-- 70_reset_and_hazards.md R251: whatever finite number of transactions comes first, a pending command reaches its engine
step or is aborted: BUSY returns to 0. That the outside world's events are a finite list is the model's choice (log entry 1). -/
def Obligations.PendingCommandEnds : Prop :=
  ∀ s : State, s.busy = true → (∀ e ∈ s.events, e.action.expressible = true) →
    ∃ (n : Nat) (t : State), n ≤ s.events.length + 1 ∧ Host.Core.run Sys2Proof.core n s = .next t ∧ t.busy = false

/-! ## Primitives (40_primitives.md) -/

/-- R127 SBOX. -/
def Obligations.SboxCommand : Prop :=
  ∀ (wd ws : Reg) (s : State),
    EncodedAs (.sbox wd ws) (0x10#8 ++ regField wd ++ regField ws ++ 0x0000#16) ∧
    (∀ c : Word, opField c = 0x10#8 → bits c 15 0 ≠ 0 → IllegalWord c) ∧
    ∃ t, exec (.sbox wd ws) s = .next t ∧ RegisterWritten s t wd (0#24 ++ Cipher.S (bits (s.readW ws) 7 0))

/-- R128 TAU. -/
def Obligations.TauCommand : Prop :=
  ∀ (wd ws : Reg) (s : State),
    EncodedAs (.tau wd ws) (0x11#8 ++ regField wd ++ regField ws ++ 0x0000#16) ∧
    (∀ c : Word, opField c = 0x11#8 → bits c 15 0 ≠ 0 → IllegalWord c) ∧
    ∃ t, exec (.tau wd ws) s = .next t ∧
      RegisterWritten s t wd
        (Cipher.S (bits (s.readW ws) 31 24) ++ Cipher.S (bits (s.readW ws) 23 16) ++
          Cipher.S (bits (s.readW ws) 15 8) ++ Cipher.S (bits (s.readW ws) 7 0))

/-- R129 LENC, its rotations the library's. -/
def Obligations.LencCommand : Prop :=
  ∀ (wd ws : Reg) (s : State),
    EncodedAs (.lenc wd ws) (0x12#8 ++ regField wd ++ regField ws ++ 0x0000#16) ∧
    (∀ c : Word, opField c = 0x12#8 → bits c 15 0 ≠ 0 → IllegalWord c) ∧
    ∃ t, exec (.lenc wd ws) s = .next t ∧
      RegisterWritten s t wd
        (s.readW ws ^^^ (s.readW ws).rotateLeft 2 ^^^ (s.readW ws).rotateLeft 10 ^^^ (s.readW ws).rotateLeft 18 ^^^
          (s.readW ws).rotateLeft 24)

/-- R130 LKEY, its rotations the library's. -/
def Obligations.LkeyCommand : Prop :=
  ∀ (wd ws : Reg) (s : State),
    EncodedAs (.lkey wd ws) (0x13#8 ++ regField wd ++ regField ws ++ 0x0000#16) ∧
    (∀ c : Word, opField c = 0x13#8 → bits c 15 0 ≠ 0 → IllegalWord c) ∧
    ∃ t, exec (.lkey wd ws) s = .next t ∧
      RegisterWritten s t wd (s.readW ws ^^^ (s.readW ws).rotateLeft 13 ^^^ (s.readW ws).rotateLeft 23)

/-- R131 TENC. -/
def Obligations.TencCommand : Prop :=
  ∀ (wd ws : Reg) (s : State),
    EncodedAs (.tenc wd ws) (0x14#8 ++ regField wd ++ regField ws ++ 0x0000#16) ∧
    (∀ c : Word, opField c = 0x14#8 → bits c 15 0 ≠ 0 → IllegalWord c) ∧
    ∃ t, exec (.tenc wd ws) s = .next t ∧ RegisterWritten s t wd (Cipher.L (Cipher.tau (s.readW ws)))

/-- R132 TKEY. -/
def Obligations.TkeyCommand : Prop :=
  ∀ (wd ws : Reg) (s : State),
    EncodedAs (.tkey wd ws) (0x15#8 ++ regField wd ++ regField ws ++ 0x0000#16) ∧
    (∀ c : Word, opField c = 0x15#8 → bits c 15 0 ≠ 0 → IllegalWord c) ∧
    ∃ t, exec (.tkey wd ws) s = .next t ∧ RegisterWritten s t wd (Cipher.Lk (Cipher.tau (s.readW ws)))

/-- R133 XOR. -/
def Obligations.XorCommand : Prop :=
  ∀ (wd ws1 ws2 : Reg) (s : State),
    EncodedAs (.xor wd ws1 ws2) (0x16#8 ++ regField wd ++ regField ws1 ++ regField ws2 ++ 0x000#12) ∧
    (∀ c : Word, opField c = 0x16#8 → bits c 11 0 ≠ 0 → IllegalWord c) ∧
    ∃ t, exec (.xor wd ws1 ws2) s = .next t ∧ RegisterWritten s t wd (s.readW ws1 ^^^ s.readW ws2)

/-- R120: the table is a permutation, and equals the construction A(I(A(x) ^ 0xD3)) ^ 0xD3, I the inversion in GF(2^8)
modulo 0x1F5 with I(0) = 0. -/
def Obligations.SboxTableIsConstruction : Prop :=
  Function.Bijective Cipher.S ∧
  ∀ x : Byte, ∃ y : Byte,
    (affineMap x ^^^ 0xD3 = 0 → y = 0) ∧ (affineMap x ^^^ 0xD3 ≠ 0 → gfMul (affineMap x ^^^ 0xD3) y 8 = 1) ∧
    Cipher.S x = affineMap y ^^^ 0xD3

/-- R126: L and Lk are linear over GF(2), so both map 0 to 0, and both map all ones to itself; they differ on 1. -/
def Obligations.LinearLayersAreLinearAndDistinct : Prop :=
  (∀ a b : Word, Cipher.L (a ^^^ b) = Cipher.L a ^^^ Cipher.L b ∧ Cipher.Lk (a ^^^ b) = Cipher.Lk a ^^^ Cipher.Lk b) ∧
  Cipher.L 0 = 0 ∧ Cipher.Lk 0 = 0 ∧ Cipher.L 0xFFFFFFFF = 0xFFFFFFFF ∧ Cipher.Lk 0xFFFFFFFF = 0xFFFFFFFF ∧
  Cipher.L 1 = 0x01040405 ∧ Cipher.Lk 1 = 0x00802001

/-! ## Key schedule (41_key_schedule.md) -/

/-- R154 FKX: W[4q+j] ^ FK[j]; an involution, and FK itself on a zero quartet. -/
def Obligations.FkxCommand : Prop :=
  ∀ (qd : Quartet) (s : State),
    EncodedAs (.fkx qd) (0x22#8 ++ quartetField qd ++ 0x00000#20) ∧
    (∀ c : Word, opField c = 0x22#8 → (bits c 21 20 ≠ 0 ∨ bits c 19 0 ≠ 0) → IllegalWord c) ∧
    ∃ t u, exec (.fkx qd) s = .next t ∧
      QuartetWritten s t qd
        ⟨(s.readQ qd).x0 ^^^ 0xA3B1BAC6, (s.readQ qd).x1 ^^^ 0x56AA3350, (s.readQ qd).x2 ^^^ 0x677D9197,
          (s.readQ qd).x3 ^^^ 0xB27022DC⟩ ∧
      exec (.fkx qd) t = .next u ∧ u.readQ qd = s.readQ qd ∧
      (s.readQ qd = ⟨0, 0, 0, 0⟩ → t.readQ qd = ⟨0xA3B1BAC6, 0x56AA3350, 0x677D9197, 0xB27022DC⟩)

/-- R155 KRND: the window slides, and its new last word is K[i] ^ Tk(K[i+1] ^ K[i+2] ^ K[i+3] ^ CK[i]). -/
def Obligations.KrndCommand : Prop :=
  ∀ (qd : Quartet) (i : RoundIndex) (s : State),
    EncodedAs (.krnd qd i) (0x21#8 ++ quartetField qd ++ 0x0#4 ++ 0x0#4 ++ 0#7 ++ (BitVec.ofFin i : BitVec 5)) ∧
    (∀ c : Word, opField c = 0x21#8 → (bits c 21 20 ≠ 0 ∨ bits c 19 12 ≠ 0 ∨ bits c 11 5 ≠ 0) → IllegalWord c) ∧
    ∃ t, exec (.krnd qd i) s = .next t ∧
      QuartetWritten s t qd
        ⟨(s.readQ qd).x1, (s.readQ qd).x2, (s.readQ qd).x3,
          (s.readQ qd).x0 ^^^ Cipher.Tk ((s.readQ qd).x1 ^^^ (s.readQ qd).x2 ^^^ (s.readQ qd).x3 ^^^ Cipher.CK i)⟩

/-- R156 KEYEXP: all of RK, KV = 1, KERR = 0; the quartet and ERRLEN stay; every key is valid. -/
def Obligations.KeyexpCommand : Prop :=
  ∀ (qs : Quartet) (s : State),
    EncodedAs (.keyexp qs) (0x30#8 ++ 0x0#4 ++ quartetField qs ++ 0x0000#16) ∧
    (∀ c : Word, opField c = 0x30#8 → (bits c 23 20 ≠ 0 ∨ bits c 17 16 ≠ 0 ∨ bits c 15 0 ≠ 0) → IllegalWord c) ∧
    ∃ t, exec (.keyexp qs) s = .next t ∧ ContextSet s t (Cipher.expandKey (s.readQ qs))

/-- R152, R151: the subkeys are K[4]..K[35] of the recurrence that starts from MK ^ FK, and its constant CK[i] has byte j equal
to (7 * (4i + j)) mod 256. -/
def Obligations.KeyScheduleRecurrence : Prop :=
  ∀ mk : Block, ∃ K : Nat → Word,
    K 0 = mk.x0 ^^^ Cipher.FK.x0 ∧ K 1 = mk.x1 ^^^ Cipher.FK.x1 ∧ K 2 = mk.x2 ^^^ Cipher.FK.x2 ∧
    K 3 = mk.x3 ^^^ Cipher.FK.x3 ∧
    ∀ i : RoundIndex,
      K (i.val + 4) = K i.val ^^^ Cipher.Tk (K (i.val + 1) ^^^ K (i.val + 2) ^^^ K (i.val + 3) ^^^ Cipher.CK i) ∧
      (Cipher.expandKey mk)[i] = K (i.val + 4) ∧
      Cipher.CK i = ckByte i.val 0 ++ ckByte i.val 1 ++ ckByte i.val 2 ++ ckByte i.val 3

/-- R155 (its corner case): after FKX and then KRND with i = 0, 1, ..., n, the last word of the quartet is the subkey rk[n];
RK and KV are not written. -/
def Obligations.KrndSequenceGivesSubkeys : Prop :=
  ∀ (qd : Quartet) (n : RoundIndex) (s : State), ∃ t,
    execAll (.fkx qd :: ((List.finRange 32).take (n.val + 1)).map (Instr.krnd qd)) s = .next t ∧
    t.readW (quartetReg qd 3) = (Cipher.expandKey (s.readQ qd))[n] ∧ SameContext s t

/-! ## Block transform (42_block_transform.md) -/

/-- R173 RND: the window slides, and its new last word is X[i] ^ T(X[i+1] ^ X[i+2] ^ X[i+3] ^ subkey), the subkey the value
W[ws] had before. No context is needed. -/
def Obligations.RndCommand : Prop :=
  ∀ (qd : Quartet) (ws : Reg) (s : State),
    EncodedAs (.rnd qd ws) (0x20#8 ++ quartetField qd ++ 0x0#4 ++ regField ws ++ 0x000#12) ∧
    (∀ c : Word, opField c = 0x20#8 → (bits c 21 20 ≠ 0 ∨ bits c 19 16 ≠ 0 ∨ bits c 11 0 ≠ 0) → IllegalWord c) ∧
    ∃ t, exec (.rnd qd ws) s = .next t ∧
      QuartetWritten s t qd
        ⟨(s.readQ qd).x1, (s.readQ qd).x2, (s.readQ qd).x3,
          (s.readQ qd).x0 ^^^ Cipher.T ((s.readQ qd).x1 ^^^ (s.readQ qd).x2 ^^^ (s.readQ qd).x3 ^^^ s.readW ws)⟩

/-- R174 REV: the four words in reverse order; an involution. -/
def Obligations.RevCommand : Prop :=
  ∀ (qd : Quartet) (s : State),
    EncodedAs (.rev qd) (0x23#8 ++ quartetField qd ++ 0x00000#20) ∧
    (∀ c : Word, opField c = 0x23#8 → (bits c 21 20 ≠ 0 ∨ bits c 19 0 ≠ 0) → IllegalWord c) ∧
    ∃ t u, exec (.rev qd) s = .next t ∧
      QuartetWritten s t qd ⟨(s.readQ qd).x3, (s.readQ qd).x2, (s.readQ qd).x1, (s.readQ qd).x0⟩ ∧
      exec (.rev qd) t = .next u ∧ u.readQ qd = s.readQ qd

/-- R175 ENC: with a context, qd <- encryptBlock(qs); without one, NOKEY and no W written. -/
def Obligations.EncCommand : Prop :=
  ∀ (qd qs : Quartet) (s : State),
    EncodedAs (.enc qd qs) (0x31#8 ++ quartetField qd ++ quartetField qs ++ 0x0000#16) ∧
    (∀ c : Word, opField c = 0x31#8 → (bits c 21 20 ≠ 0 ∨ bits c 17 16 ≠ 0 ∨ bits c 15 0 ≠ 0) → IllegalWord c) ∧
    (s.kv = true → ∃ t, exec (.enc qd qs) s = .next t ∧
      QuartetWritten s t qd (Cipher.encryptBlock s.rk (s.readQ qs))) ∧
    (s.kv = false → ∃ t, exec (.enc qd qs) s = .next t ∧ FaultTaken s t 2 s.pend)

/-- R176 DEC: with a context, qd <- decryptBlock(qs), which restores a block that ENC encrypted; without one, NOKEY and no W
written. -/
def Obligations.DecCommand : Prop :=
  ∀ (qd qs : Quartet) (s : State),
    EncodedAs (.dec qd qs) (0x32#8 ++ quartetField qd ++ quartetField qs ++ 0x0000#16) ∧
    (∀ c : Word, opField c = 0x32#8 → (bits c 21 20 ≠ 0 ∨ bits c 17 16 ≠ 0 ∨ bits c 15 0 ≠ 0) → IllegalWord c) ∧
    (s.kv = true → ∃ t, exec (.dec qd qs) s = .next t ∧
      QuartetWritten s t qd (Cipher.decryptBlock s.rk (s.readQ qs)) ∧
      ∀ x, s.readQ qs = Cipher.encryptBlock s.rk x → t.readQ qd = x) ∧
    (s.kv = false → ∃ t, exec (.dec qd qs) s = .next t ∧ FaultTaken s t 2 s.pend)

/-- R170: transform is the 32-round recurrence from X0..X3, and its output is (X35, X34, X33, X32). -/
def Obligations.TransformRecurrence : Prop :=
  ∀ (sk : Vector Word 32) (x : Block), ∃ X : Nat → Word,
    X 0 = x.x0 ∧ X 1 = x.x1 ∧ X 2 = x.x2 ∧ X 3 = x.x3 ∧
    (∀ i : RoundIndex,
      X (i.val + 4) = X i.val ^^^ Cipher.T (X (i.val + 1) ^^^ X (i.val + 2) ^^^ X (i.val + 3) ^^^ sk[i])) ∧
    Cipher.transform sk.toList x = ⟨X 35, X 34, X 33, X 32⟩

/-- R171: encryption takes RK[0], ..., RK[31], decryption RK[31], ..., RK[0], through the same transform. -/
def Obligations.DecryptionReversesSubkeyOrder : Prop :=
  ∀ (rk : Vector Word 32) (x : Block),
    Cipher.encryptBlock rk x = Cipher.transform (List.ofFn (fun i : RoundIndex => rk[i])) x ∧
    Cipher.decryptBlock rk x = Cipher.transform (List.ofFn (fun i : RoundIndex => rk[i.rev])) x

/-- R172: decryption under the same RK undoes encryption, and encryption undoes decryption, whatever RK holds. -/
def Obligations.DecryptionInvertsEncryption : Prop :=
  ∀ (rk : Vector Word 32) (x : Block),
    Cipher.decryptBlock rk (Cipher.encryptBlock rk x) = x ∧ Cipher.encryptBlock rk (Cipher.decryptBlock rk x) = x

/-- R172, R156, R175, R176, in commands: from any state, KEYEXP of any quartet, ENC into any quartet, then DEC of that one into
any quartet leaves there the block that was encrypted. -/
def Obligations.KeyexpEncDecRestoresBlock : Prop :=
  ∀ (qk qd qs qe : Quartet) (s : State), ∃ t,
    execAll [.keyexp qk, .enc qd qs, .dec qe qd] s = .next t ∧ t.readQ qe = s.readQ qs ∧ t.fault = s.fault

/-- R173 (its corner case): 32 RNDs with the subkeys RK[0], ..., RK[31] loaded in turn into a register outside the quartet,
then REV, leave what ENC gives; with RK[31], ..., RK[0], what DEC gives. -/
def Obligations.RoundsThenRevAreEncAndDec : Prop :=
  ∀ (qd : Quartet) (ws : Reg) (s : State), ws.val / 4 ≠ qd.val →
    (∃ t u, rndAll qd ws s.rk.toList s = .next t ∧ exec (.rev qd) t = .next u ∧
      u.readQ qd = Cipher.encryptBlock s.rk (s.readQ qd)) ∧
    (∃ t u, rndAll qd ws s.rk.toList.reverse s = .next t ∧ exec (.rev qd) t = .next u ∧
      u.readQ qd = Cipher.decryptBlock s.rk (s.readQ qd))

/-! ## Context and contract (43_context_contract.md) -/

/-- R191 NOP. -/
def Obligations.NopCommand : Prop :=
  ∀ s : State,
    EncodedAs .nop 0x01000000 ∧
    (∀ c : Word, opField c = 0x01#8 → bits c 23 0 ≠ 0 → IllegalWord c) ∧
    ∃ t, exec .nop s = .next t ∧ SameW s t ∧ OnlyWChanges s t

/-- R192 KEYEXPM: the size check comes first and is no fault; then the range check; then the key setup from the 16 bytes,
with the RK that KEYEXP of a quartet with the same words gives. -/
def Obligations.KeyexpmCommand : Prop :=
  ∀ (wk : Reg) (s : State),
    EncodedAs (.keyexpm wk) (0x40#8 ++ 0x0#4 ++ regField wk ++ 0x0000#16) ∧
    (∀ c : Word, opField c = 0x40#8 → (bits c 23 20 ≠ 0 ∨ bits c 15 0 ≠ 0) → IllegalWord c) ∧
    (bits (s.readW wk) 31 16 ≠ 16 → ∃ t, exec (.keyexpm wk) s = .next t ∧
      KeySizeErrorTaken s t (bits (s.readW wk) 31 16)) ∧
    (bits (s.readW wk) 31 16 = 16 → (bits (s.readW wk) 15 0).toNat + 16 > s.params.bufBytes →
      ∃ t, exec (.keyexpm wk) s = .next t ∧ FaultTaken s t 4 s.pend) ∧
    (bits (s.readW wk) 31 16 = 16 → (bits (s.readW wk) 15 0).toNat + 16 ≤ s.params.bufBytes →
      ∃ t, exec (.keyexpm wk) s = .next t ∧
        ContextSet s t (Cipher.expandKey (s.bufBlock (bits (s.readW wk) 15 0).toNat)) ∧
        ∀ qs : Quartet, s.readQ qs = s.bufBlock (bits (s.readW wk) 15 0).toNat →
          ∃ u, exec (.keyexp qs) s = .next u ∧ u.rk = t.rk)

/-- R196 ENCM: when every check holds, the first 16 bytes of the destination become the encryption of the first 16 bytes of
the source, and nothing else changes; when one fails, the fault of the first that fails (R198; Obligations.BufferChecksInOrder),
and no byte written. -/
def Obligations.EncmCommand : Prop :=
  ∀ (wdst wsrc : Reg) (s : State),
    EncodedAs (.encm wdst wsrc) (0x41#8 ++ 0x0#4 ++ regField wdst ++ regField wsrc ++ 0x000#12) ∧
    (∀ c : Word, opField c = 0x41#8 → (bits c 23 20 ≠ 0 ∨ bits c 11 0 ≠ 0) → IllegalWord c) ∧
    (BlockCallOk s (s.descriptor wdst) (s.descriptor wsrc) → ∃ t, exec (.encm wdst wsrc) s = .next t ∧
      BlockStored s t (s.descriptor wdst).off (Cipher.encryptBlock s.rk (s.bufBlock (s.descriptor wsrc).off))) ∧
    (¬BlockCallOk s (s.descriptor wdst) (s.descriptor wsrc) → ∃ t c, exec (.encm wdst wsrc) s = .next t ∧
      s.checkBlockCall (s.descriptor wdst) (s.descriptor wsrc) = some c ∧ FaultTaken s t c.code s.pend)

/-- R197 DECM: as ENCM, with decryption, which restores a block that ENCM encrypted. -/
def Obligations.DecmCommand : Prop :=
  ∀ (wdst wsrc : Reg) (s : State),
    EncodedAs (.decm wdst wsrc) (0x42#8 ++ 0x0#4 ++ regField wdst ++ regField wsrc ++ 0x000#12) ∧
    (∀ c : Word, opField c = 0x42#8 → (bits c 23 20 ≠ 0 ∨ bits c 11 0 ≠ 0) → IllegalWord c) ∧
    (BlockCallOk s (s.descriptor wdst) (s.descriptor wsrc) → ∃ t, exec (.decm wdst wsrc) s = .next t ∧
      BlockStored s t (s.descriptor wdst).off (Cipher.decryptBlock s.rk (s.bufBlock (s.descriptor wsrc).off)) ∧
      ∀ x, s.bufBlock (s.descriptor wsrc).off = Cipher.encryptBlock s.rk x → t.bufBlock (s.descriptor wdst).off = x) ∧
    (¬BlockCallOk s (s.descriptor wdst) (s.descriptor wsrc) → ∃ t c, exec (.decm wdst wsrc) s = .next t ∧
      s.checkBlockCall (s.descriptor wdst) (s.descriptor wsrc) = some c ∧ FaultTaken s t c.code s.pend)

/-- R198: the six checks of ENCM and DECM, in order; the first that fails decides the code, and FINFO is the command word. -/
def Obligations.BufferChecksInOrder : Prop :=
  ∀ (i : Instr) (wdst wsrc : Reg) (s : State), (i = .encm wdst wsrc ∨ i = .decm wdst wsrc) →
    let slen := (bits (s.readW wsrc) 31 16).toNat
    let soff := (bits (s.readW wsrc) 15 0).toNat
    let dlen := (bits (s.readW wdst) 31 16).toNat
    let doff := (bits (s.readW wdst) 15 0).toNat
    let faults := fun code : BitVec 4 => ∃ t, exec i s = .next t ∧ FaultTaken s t code s.pend
    (s.kv = false → faults 2) ∧
    (s.kv = true → slen < 16 → faults 3) ∧
    (s.kv = true → 16 ≤ slen → dlen < 16 → faults 3) ∧
    (s.kv = true → 16 ≤ slen → 16 ≤ dlen → s.params.bufBytes < soff + slen → faults 4) ∧
    (s.kv = true → 16 ≤ slen → 16 ≤ dlen → soff + slen ≤ s.params.bufBytes → s.params.bufBytes < doff + dlen →
      faults 4) ∧
    (s.kv = true → 16 ≤ slen → 16 ≤ dlen → soff + slen ≤ s.params.bufBytes → doff + dlen ≤ s.params.bufBytes →
      soff ≠ doff → soff < doff + 16 → doff < soff + 16 → faults 5)

/-- R197 (its corner case), R172: DECM of what ENCM wrote, under the same context, restores the plaintext bytes, in place
or not. -/
def Obligations.DecmAfterEncmRestoresBytes : Prop :=
  ∀ (wdst wsrc wback : Reg) (s : State),
    BlockCallOk s (s.descriptor wdst) (s.descriptor wsrc) → BlockCallOk s (s.descriptor wback) (s.descriptor wdst) →
    ∃ t, execAll [.encm wdst wsrc, .decm wback wdst] s = .next t ∧
      t.bufBlock (s.descriptor wback).off = s.bufBlock (s.descriptor wsrc).off

/-- R200: what ENC, DEC, ENCM and DECM write depends on RK and the 16 input bytes or words alone: two states that agree on
those, and may differ in everything else, get the same output. -/
def Obligations.BlockCommandsAreReferentiallyTransparent : Prop :=
  ∀ s₁ s₂ : State, s₁.rk = s₂.rk → s₁.kv = true → s₂.kv = true →
    (∀ qd₁ qs₁ qd₂ qs₂ : Quartet, s₁.readQ qs₁ = s₂.readQ qs₂ →
      (∃ t₁ t₂, exec (.enc qd₁ qs₁) s₁ = .next t₁ ∧ exec (.enc qd₂ qs₂) s₂ = .next t₂ ∧
        t₁.readQ qd₁ = t₂.readQ qd₂) ∧
      (∃ t₁ t₂, exec (.dec qd₁ qs₁) s₁ = .next t₁ ∧ exec (.dec qd₂ qs₂) s₂ = .next t₂ ∧
        t₁.readQ qd₁ = t₂.readQ qd₂)) ∧
    (∀ d₁ r₁ d₂ r₂ : Reg,
      BlockCallOk s₁ (s₁.descriptor d₁) (s₁.descriptor r₁) → BlockCallOk s₂ (s₂.descriptor d₂) (s₂.descriptor r₂) →
      s₁.bufBlock (s₁.descriptor r₁).off = s₂.bufBlock (s₂.descriptor r₂).off →
      (∃ t₁ t₂, exec (.encm d₁ r₁) s₁ = .next t₁ ∧ exec (.encm d₂ r₂) s₂ = .next t₂ ∧
        t₁.bufBlock (s₁.descriptor d₁).off = t₂.bufBlock (s₂.descriptor d₂).off) ∧
      (∃ t₁ t₂, exec (.decm d₁ r₁) s₁ = .next t₁ ∧ exec (.decm d₂ r₂) s₂ = .next t₂ ∧
        t₁.bufBlock (s₁.descriptor d₁).off = t₂.bufBlock (s₂.descriptor d₂).off))

/-! ## Whole-machine rules -/

/-- 10_state.md R23, R24, R25: a step changes RK or KV only when it runs a KEYEXP or a KEYEXPM, or is a reset. -/
def Obligations.ContextChangesOnlyBySetupOrReset : Prop :=
  ∀ s t : State, step s = .next t → (t.rk ≠ s.rk ∨ t.kv ≠ s.kv) →
    (EnginesTurn s ∧ ((∃ q, decode s.pend = .ok (.keyexp q)) ∨ ∃ r, decode s.pend = .ok (.keyexpm r))) ∨
    (¬EnginesTurn s ∧ ∃ e rest, s.events = e :: rest ∧
      (e.action = .reset ∨ ∃ v, e.action = .write 0x0008 v ∧ v.getLsbD 0 = true))

/-- 20_memory.md R71: no command but ENCM and DECM writes a byte of BUF, and those write no byte outside the 16 at the
destination offset, whatever the destination's length. -/
def Obligations.CommandsWriteOnlyDestinationBytes : Prop :=
  ∀ (i : Instr) (s t : State), exec i s = .next t →
    ((∀ d r, i ≠ .encm d r ∧ i ≠ .decm d r) → SameBuf s t) ∧
    (∀ d r, (i = .encm d r ∨ i = .decm d r) →
      ∀ a, ¬((s.descriptor d).off ≤ a ∧ a < (s.descriptor d).off + 16) → t.bufByte a = s.bufByte a)

/-- 60_exceptions.md R213, R212: a command that faults, an illegal word among them, makes no write except the four of the
fault entry; its code is one of 1..5 and FINFO is the command word. -/
def Obligations.FaultingCommandWritesNothingElse : Prop :=
  ∀ s t : State, EnginesTurn s → s.fault = false → step s = .next t → t.fault = true →
    1 ≤ t.fcode.toNat ∧ t.fcode.toNat ≤ 5 ∧ FaultTaken s t t.fcode s.pend

/-- 10_state.md R50: a command other than KEYEXP and KEYEXPM writes no KV, KERR or ERRLEN; every command, faulting or not,
ends with BUSY = 0 and keeps PEND. -/
def Obligations.CommandsWriteTheirFlagsOnly : Prop :=
  ∀ (i : Instr) (s t : State), exec i s = .next t →
    t.busy = false ∧ t.pend = s.pend ∧
    ((∀ q, i ≠ .keyexp q) → (∀ r, i ≠ .keyexpm r) → SameContext s t ∧ SameKeyError s t) ∧
    (t.errlen ≠ s.errlen → t.kerr = true)

/-- 60_exceptions.md R215, R216, R217: while FAULT = 1 nothing but a reset changes the engine's state. -/
def Obligations.FaultHoldsUntilReset : Prop :=
  ∀ s t : State, s.fault = true → s.busy = false → step s = .next t →
    (∀ e rest, s.events = e :: rest →
      e.action ≠ .reset ∧ ∀ v, e.action = .write 0x0008 v → v.getLsbD 0 = false) →
    SameEngine s t

/-! ## Host port (10_state.md, 20_memory.md) -/

/-- R38: STATUS, field by field. -/
def Obligations.StatusFields : Prop :=
  ∀ s : State,
    s.statusWord.getLsbD 0 = s.busy ∧ s.statusWord.getLsbD 1 = s.kv ∧ s.statusWord.getLsbD 2 = s.kerr ∧
    s.statusWord.getLsbD 3 = s.fault ∧ bits s.statusWord 7 4 = s.fcode ∧ bits s.statusWord 31 8 = 0

/-- R62: what a HostRead returns at each offset, and that it changes no state of the engine. ANY32 is the free value
`Config.any32`, a new one for each such read (log entry 4). -/
def Obligations.HostReadReturns : Prop :=
  ∀ (s : State) (off : BitVec 16), off.toNat % 4 = 0 → ∃ t v,
    takeAction (.read off) s = .next t ∧ SameEngine s t ∧ t.events = s.events ∧ t.replies = ⟨off, v⟩ :: s.replies ∧
    (off = 0x0000 → v = 0x534D3401) ∧
    (off = 0x0004 → v = 0#24 ++ s.fcode ++ BitVec.ofBool s.fault ++ BitVec.ofBool s.kerr ++ BitVec.ofBool s.kv ++
      BitVec.ofBool s.busy) ∧
    (off = 0x0008 ∨ off = 0x000C → v = 0) ∧
    (off = 0x0010 → v = 0#16 ++ s.errlen) ∧
    (off = 0x0014 → v = s.finfo) ∧
    (off = 0x0018 → v.toNat = s.params.bufBytes) ∧
    (off = 0x001C → v = 16) ∧
    (∀ r : Reg, off.toNat = 0x0040 + 4 * r.val →
      (s.busy = true → v = Config.any32 s.draws ∧ t.draws = s.draws + 1) ∧ (s.busy = false → v = s.readW r)) ∧
    (∀ i : RoundIndex, off.toNat = 0x0080 + 4 * i.val →
      (s.busy = true → v = Config.any32 s.draws ∧ t.draws = s.draws + 1) ∧ (s.busy = false → v = s.readRK i)) ∧
    (∀ a, off.toNat = 0x1000 + a → a < s.params.bufBytes →
      (s.busy = true → v = Config.any32 s.draws ∧ t.draws = s.draws + 1) ∧ (s.busy = false → v = s.bufWord a)) ∧
    ((0x0020 ≤ off.toNat ∧ off.toNat ≤ 0x003C) ∨ (0x0100 ≤ off.toNat ∧ off.toNat ≤ 0x0FFC) ∨
      0x1000 + s.params.bufBytes ≤ off.toNat → v = 0)

/-- R63, R64: what a HostWrite does, case by case in the rule's order. What PEND holds after a BUSYWR abort is not said (log
entry 8); that a write leaves the events to come is the model's choice (log entry 1). -/
def Obligations.HostWriteDoes : Prop :=
  ∀ (s : State) (off : BitVec 16) (v : Word), off.toNat % 4 = 0 →
    (off = 0x0008 → v.getLsbD 0 = true → ∃ t, takeAction (.write off v) s = .next t ∧ ResetTaken s t ∧
      t.events = s.events) ∧
    (off = 0x0008 → v.getLsbD 0 = false → takeAction (.write off v) s = .next s) ∧
    (off ≠ 0x0008 → s.fault = true → takeAction (.write off v) s = .next s) ∧
    (off ≠ 0x0008 → s.fault = false → s.busy = true →
      ∃ t, takeAction (.write off v) s = .next t ∧ FaultTaken { s with pend := t.pend } t 6 (0#16 ++ off)) ∧
    (s.fault = false → s.busy = false →
      (off = 0x000C → takeAction (.write off v) s = .next { s with pend := v, busy := true }) ∧
      (∀ r : Reg, off.toNat = 0x0040 + 4 * r.val →
        ∃ t, takeAction (.write off v) s = .next t ∧ RegisterWritten s t r v) ∧
      (∀ a, off.toNat = 0x1000 + a → a < s.params.bufBytes →
        ∃ t, takeAction (.write off v) s = .next t ∧ WordStored s t a v) ∧
      (off.toNat < 0x0008 ∨ (0x0010 ≤ off.toNat ∧ off.toNat ≤ 0x003C) ∨ (0x0080 ≤ off.toNat ∧ off.toNat ≤ 0x0FFC) ∨
        0x1000 + s.params.bufBytes ≤ off.toNat → takeAction (.write off v) s = .next s))

/-- R67: a host word in BUF is its four bytes, the lowest offset most significant, both ways. -/
def Obligations.BufWordsAreBigEndian : Prop :=
  ∀ (s : State) (a : Nat) (v : Word), a % 4 = 0 → a < s.params.bufBytes → s.fault = false → s.busy = false →
    s.bufWord a = s.bufByte a ++ s.bufByte (a + 1) ++ s.bufByte (a + 2) ++ s.bufByte (a + 3) ∧
    ∃ t, takeAction (.write (BitVec.ofNat 16 (0x1000 + a)) v) s = .next t ∧ t.bufByte a = bits v 31 24 ∧
      t.bufByte (a + 1) = bits v 23 16 ∧ t.bufByte (a + 2) = bits v 15 8 ∧ t.bufByte (a + 3) = bits v 7 0 ∧
      t.bufWord a = v

/-! ## Reset (10_state.md R49, 70_reset_and_hazards.md) -/

/-- R241, R240: both reset sources leave the reset state and BUF as it was, in any state, a pending command discarded. -/
def Obligations.ResetClearsTheEngine : Prop :=
  ∀ s : State,
    (∃ t, takeAction .reset s = .next t ∧ ResetTaken s t) ∧
    takeAction (.write 0x0008 1) s = takeAction .reset s

/-- R49: the state after reset, for every BUF_BYTES; STATUS reads 0. -/
def Obligations.ResetStateValues : Prop :=
  ∀ p : Params,
    (∀ r, (State.resetWith p).readW r = 0x00000000) ∧ (∀ i, (State.resetWith p).readRK i = 0x00000000) ∧
    (State.resetWith p).kv = false ∧ (State.resetWith p).busy = false ∧ (State.resetWith p).pend = 0x00000000 ∧
    (State.resetWith p).kerr = false ∧ (State.resetWith p).errlen = 0x0000 ∧ (State.resetWith p).fault = false ∧
    (State.resetWith p).fcode = 0 ∧ (State.resetWith p).finfo = 0x00000000 ∧
    (State.resetWith p).statusWord = 0x00000000 ∧ ∃ q, State.reset = State.resetWith q

/-- The invariant holds right after reset, for every BUF_BYTES. -/
def Obligations.ResetSatisfiesInvariant : Prop :=
  ∀ p : Params, (State.resetWith p).Inv

/-- R99, R31, R32, R211, R25, R23, R195, R193: the invariant is kept by every step, of the engine, of the host and of reset. -/
def Obligations.StepKeepsInvariant : Prop :=
  ∀ s t : State, s.Inv → step s = .next t → t.Inv

/-- 00_scope.md R7: no step changes BUF_BYTES. -/
def Obligations.ParameterNeverChanges : Prop :=
  ∀ s t : State, step s = .next t → t.params = s.params
end

