-- ==== Sys2Proof/Laws/Cipher.lean ====
section
/-! SUPPORT. Small laws of the cipher's functions (40_primitives.md, 41_key_schedule.md, 42_block_transform.md). -/

namespace Sys2Proof.Machine.Cipher

/-- The R transform is an involution (R174). -/
@[simp] theorem reverseWords_reverseWords (x : Block) : reverseWords (reverseWords x) = x := rfl

/-- XOR with FK is an involution (R154). -/
@[simp] theorem whiten_whiten (x : Block) : whiten (whiten x) = x := by
  simp [whiten]

/-- Left rotation is the library's (00_scope.md R10). -/
theorem rotl32_eq_rotateLeft (x : Word) {n : Nat} (h : n < 32) : rotl32 x n = x.rotateLeft n := by
  simp [rotl32, BitVec.rotateLeft_def, Nat.mod_eq_of_lt h]

/-- Rotation distributes over XOR. -/
theorem rotl32_xor (a b : Word) (n : Nat) : rotl32 (a ^^^ b) n = rotl32 a n ^^^ rotl32 b n := by
  ext i hi
  simp only [rotl32, BitVec.getElem_or, BitVec.getElem_shiftLeft, BitVec.getElem_ushiftRight, BitVec.getElem_xor,
    BitVec.getLsbD_xor]
  by_cases h1 : i < n
  · simp [h1]
  · have h2 : 32 ≤ 32 - n + i := by omega
    simp [h1, BitVec.getLsbD_of_ge _ _ h2]

/-- The first subkey, and the rest from the next window (R152). -/
@[simp] theorem subkeys_cons (k : Block) (ck : Word) (cks : List Word) :
    subkeys k (ck :: cks) = (keyRound k ck).x3 :: subkeys (keyRound k ck) cks := rfl

/-- R151's table has 32 entries. -/
@[simp] theorem length_ckTable : ckTable.length = 32 := rfl

/-- A round is undone by a round with the same subkey on the reversed window: what makes R172 hold (R170). -/
theorem encRound_reverseWords_encRound (x : Block) (k : Word) :
    encRound (reverseWords (encRound x k)) k = reverseWords x := by
  have h : x.x3 ^^^ x.x2 ^^^ x.x1 ^^^ k = x.x1 ^^^ x.x2 ^^^ x.x3 ^^^ k := by
    rw [BitVec.xor_comm x.x3 x.x2, BitVec.xor_comm (x.x2 ^^^ x.x3) x.x1, ← BitVec.xor_assoc]
  simp only [encRound, reverseWords, h]
  rw [BitVec.xor_assoc, BitVec.xor_self, BitVec.xor_zero]

end Sys2Proof.Machine.Cipher
end

