-- ==== Sys2Proof/Laws/Decode.lean ====
section
/-! SUPPORT. The fields of a word written from fields (30_encoding.md R91): what each field reader finds in `fieldsWord`. -/

namespace Sys2Proof

/-- `v[hi:lo]` as a number (00_scope.md R9). -/
theorem toNat_bits (v : Word) (hi lo : Nat) : (bits v hi lo).toNat = v.toNat / 2 ^ lo % 2 ^ (hi - lo + 1) := by
  simp [bits, BitVec.extractLsb_toNat, Nat.shiftRight_eq_div_pow]

section
variable (op : BitVec 8) (rd rs1 rs2 : BitVec 4) (imm : BitVec 12)

/-- A command word as a number, field by field (R91). -/
theorem fieldsWord_toNat :
    (fieldsWord op rd rs1 rs2 imm).toNat =
      op.toNat * 2 ^ 24 + rd.toNat * 2 ^ 20 + rs1.toNat * 2 ^ 16 + rs2.toNat * 2 ^ 12 + imm.toNat := by
  have h : (fieldsWord op rd rs1 rs2 imm).toNat =
      ((((op ++ rd : BitVec (8 + 4)) ++ rs1 : BitVec (8 + 4 + 4)) ++ rs2 : BitVec (8 + 4 + 4 + 4)) ++ imm :
        BitVec (8 + 4 + 4 + 4 + 12)).toNat := rfl
  rw [h]
  simp only [BitVec.toNat_append]
  have := op.isLt
  simp only [Nat.shiftLeft_eq, Nat.mul_comm _ (2 ^ _), ← Nat.two_pow_add_eq_or_of_lt rd.isLt,
    ← Nat.two_pow_add_eq_or_of_lt rs1.isLt, ← Nat.two_pow_add_eq_or_of_lt rs2.isLt,
    ← Nat.two_pow_add_eq_or_of_lt imm.isLt]
  omega

/-- Any run of bits of a command word as a number. -/
theorem toNat_bits_fieldsWord (hi lo : Nat) :
    (bits (fieldsWord op rd rs1 rs2 imm) hi lo).toNat =
      (op.toNat * 2 ^ 24 + rd.toNat * 2 ^ 20 + rs1.toNat * 2 ^ 16 + rs2.toNat * 2 ^ 12 + imm.toNat) / 2 ^ lo %
        2 ^ (hi - lo + 1) := by
  rw [toNat_bits, fieldsWord_toNat]

@[simp] theorem opField_fieldsWord : opField (fieldsWord op rd rs1 rs2 imm) = op := by
  apply BitVec.eq_of_toNat_eq
  have := op.isLt; have := rd.isLt; have := rs1.isLt; have := rs2.isLt; have := imm.isLt
  rw [opField, toNat_bits_fieldsWord]; omega

@[simp] theorem bits_rd_fieldsWord : bits (fieldsWord op rd rs1 rs2 imm) 23 20 = rd := by
  apply BitVec.eq_of_toNat_eq
  have := op.isLt; have := rd.isLt; have := rs1.isLt; have := rs2.isLt; have := imm.isLt
  rw [toNat_bits_fieldsWord]; omega

@[simp] theorem bits_rs1_fieldsWord : bits (fieldsWord op rd rs1 rs2 imm) 19 16 = rs1 := by
  apply BitVec.eq_of_toNat_eq
  have := op.isLt; have := rd.isLt; have := rs1.isLt; have := rs2.isLt; have := imm.isLt
  rw [toNat_bits_fieldsWord]; omega

@[simp] theorem bits_rs2_fieldsWord : bits (fieldsWord op rd rs1 rs2 imm) 15 12 = rs2 := by
  apply BitVec.eq_of_toNat_eq
  have := op.isLt; have := rd.isLt; have := rs1.isLt; have := rs2.isLt; have := imm.isLt
  rw [toNat_bits_fieldsWord]; omega

/-- The whole of a word is its five fields: a word is known by them. -/
theorem fieldsWord_fields (c : Word) :
    fieldsWord (opField c) (bits c 23 20) (bits c 19 16) (bits c 15 12) (bits c 11 0) = c := by
  apply BitVec.eq_of_toNat_eq
  have := c.isLt
  rw [fieldsWord_toNat, opField]
  simp only [toNat_bits]
  omega

end

/-- Fields of a bitwise AND of two command words (R91, R103). -/
theorem fieldsWord_and (op mop : BitVec 8) (rd rs1 rs2 mrd mrs1 mrs2 : BitVec 4) (imm mimm : BitVec 12) :
    fieldsWord op rd rs1 rs2 imm &&& fieldsWord mop mrd mrs1 mrs2 mimm =
      fieldsWord (op &&& mop) (rd &&& mrd) (rs1 &&& mrs1) (rs2 &&& mrs2) (imm &&& mimm) := by
  have h : fieldsWord op rd rs1 rs2 imm &&& fieldsWord mop mrd mrs1 mrs2 mimm =
      ((op ++ rd ++ rs1 ++ rs2 ++ imm : BitVec (8 + 4 + 4 + 4 + 12)) &&& (mop ++ mrd ++ mrs1 ++ mrs2 ++ mimm)) := rfl
  rw [h, BitVec.and_append, BitVec.and_append, BitVec.and_append, BitVec.and_append]
  rfl

/-- A command word is known by its fields. -/
theorem fieldsWord_inj {op op' : BitVec 8} {rd rs1 rs2 rd' rs1' rs2' : BitVec 4} {imm imm' : BitVec 12} :
    fieldsWord op rd rs1 rs2 imm = fieldsWord op' rd' rs1' rs2' imm' ↔
      op = op' ∧ rd = rd' ∧ rs1 = rs1' ∧ rs2 = rs2' ∧ imm = imm' := by
  constructor
  · intro h
    have h1 := op.isLt; have h2 := rd.isLt; have h3 := rs1.isLt; have h4 := rs2.isLt; have h5 := imm.isLt
    have h1' := op'.isLt; have h2' := rd'.isLt; have h3' := rs1'.isLt; have h4' := rs2'.isLt; have h5' := imm'.isLt
    have := congrArg BitVec.toNat h
    rw [fieldsWord_toNat, fieldsWord_toNat] at this
    refine ⟨?_, ?_, ?_, ?_, ?_⟩ <;> apply BitVec.eq_of_toNat_eq <;> omega
  · rintro ⟨rfl, rfl, rfl, rfl, rfl⟩; rfl

/-- A register field holds the register's number (R93). -/
@[simp] theorem regField_toNat (r : Reg) : (regField r).toNat = r.val := rfl

/-- A quartet field holds 4q (R93, R101). -/
@[simp] theorem quartetField_toNat (q : Quartet) : (quartetField q).toNat = 4 * q.val := by
  revert q; decide

/-- The imm field of a round index holds it (R94). -/
@[simp] theorem indexField_toNat (i : RoundIndex) : (indexField i).toNat = i.val := by
  revert i; decide

@[simp] theorem rdReg_fieldsWord (op : BitVec 8) (r : Reg) (rs1 rs2 : BitVec 4) (imm : BitVec 12) :
    rdReg (fieldsWord op (regField r) rs1 rs2 imm) = r := by
  rw [rdReg, bits_rd_fieldsWord]; rfl

@[simp] theorem rs1Reg_fieldsWord (op : BitVec 8) (rd : BitVec 4) (r : Reg) (rs2 : BitVec 4) (imm : BitVec 12) :
    rs1Reg (fieldsWord op rd (regField r) rs2 imm) = r := by
  rw [rs1Reg, bits_rs1_fieldsWord]; rfl

@[simp] theorem rs2Reg_fieldsWord (op : BitVec 8) (rd rs1 : BitVec 4) (r : Reg) (imm : BitVec 12) :
    rs2Reg (fieldsWord op rd rs1 (regField r) imm) = r := by
  rw [rs2Reg, bits_rs2_fieldsWord]; rfl

@[simp] theorem rdQuartet_fieldsWord (op : BitVec 8) (q : Quartet) (rs1 rs2 : BitVec 4) (imm : BitVec 12) :
    rdQuartet (fieldsWord op (quartetField q) rs1 rs2 imm) = q := by
  apply Fin.ext
  have := op.isLt; have := q.isLt; have := rs1.isLt; have := rs2.isLt; have := imm.isLt
  have h : (rdQuartet (fieldsWord op (quartetField q) rs1 rs2 imm)).val =
      (bits (fieldsWord op (quartetField q) rs1 rs2 imm) 23 22).toNat := rfl
  rw [h, toNat_bits_fieldsWord, quartetField_toNat]; omega

@[simp] theorem rs1Quartet_fieldsWord (op : BitVec 8) (rd : BitVec 4) (q : Quartet) (rs2 : BitVec 4) (imm : BitVec 12) :
    rs1Quartet (fieldsWord op rd (quartetField q) rs2 imm) = q := by
  apply Fin.ext
  have := op.isLt; have := q.isLt; have := rd.isLt; have := rs2.isLt; have := imm.isLt
  have h : (rs1Quartet (fieldsWord op rd (quartetField q) rs2 imm)).val =
      (bits (fieldsWord op rd (quartetField q) rs2 imm) 19 18).toNat := rfl
  rw [h, toNat_bits_fieldsWord, quartetField_toNat]; omega

@[simp] theorem immIndex_fieldsWord (op : BitVec 8) (rd rs1 rs2 : BitVec 4) (i : RoundIndex) :
    immIndex (fieldsWord op rd rs1 rs2 (indexField i)) = i := by
  apply Fin.ext
  have := op.isLt; have := i.isLt; have := rd.isLt; have := rs1.isLt; have := rs2.isLt
  have h : (immIndex (fieldsWord op rd rs1 rs2 (indexField i))).val =
      (bits (fieldsWord op rd rs1 rs2 (indexField i)) 4 0).toNat := rfl
  rw [h, toNat_bits_fieldsWord, indexField_toNat]; omega

/-! ## The rules' own spellings of a word's unused fields -/

/-- Unused rs2 and imm fields (R127, R156, R175, R192) are 16 zero bits. -/
theorem append_zero16 (op : BitVec 8) (rd rs1 : BitVec 4) :
    op ++ rd ++ rs1 ++ 0x0000#16 = fieldsWord op rd rs1 0#4 0#12 :=
  (BitVec.append_assoc (x₁ := op ++ rd ++ rs1) (x₂ := 0#4) (x₃ := 0#12)).symm

/-- Unused rs1, rs2 and imm fields (R154, R174) are 20 zero bits. -/
theorem append_zero20 (op : BitVec 8) (rd : BitVec 4) : op ++ rd ++ 0x00000#20 = fieldsWord op rd 0#4 0#4 0#12 := by
  rw [← append_zero16]
  exact (BitVec.append_assoc (x₁ := op ++ rd) (x₂ := 0#4) (x₃ := 0#16)).symm

/-- KRND's index stands below seven zero bits (R155). -/
theorem append_index (op : BitVec 8) (rd : BitVec 4) (i : RoundIndex) :
    op ++ rd ++ 0x0#4 ++ 0x0#4 ++ 0#7 ++ (BitVec.ofFin i : BitVec 5) = fieldsWord op rd 0#4 0#4 (indexField i) :=
  BitVec.append_assoc (x₁ := op ++ rd ++ 0x0#4 ++ 0x0#4) (x₂ := 0#7) (x₃ := (BitVec.ofFin i : BitVec 5))

/-! ## Everything the decoder can do -/

/-- The decoder by format (R98, R103): a word with an assigned opcode decodes exactly when its format's zero bits hold; a word
with another opcode does not decode. -/
theorem decode_cases (c : Word) :
    (∃ f i, formatOf (opField c) = some f ∧ f.zerosHold c = true ∧ decode c = .ok i) ∨
    (∃ f, formatOf (opField c) = some f ∧ f.zerosHold c = false ∧ decode c = .error (.reservedBits (opField c))) ∨
    (formatOf (opField c) = none ∧ decode c = .error (.unassignedOpcode (opField c))) := by
  have shape : (∃ f i, formatOf (opField c) = some f ∧ decode c = legal f c i) ∨
      (formatOf (opField c) = none ∧ decode c = .error (.unassignedOpcode (opField c))) := by
    unfold decode formatOf
    split
    case h_19 => exact .inr ⟨rfl, rfl⟩
    all_goals exact .inl ⟨_, _, rfl, rfl⟩
  rcases shape with ⟨f, i, hf, hd⟩ | h
  · cases hz : f.zerosHold c with
    | true => exact .inl ⟨f, i, hf, hz, by rw [hd, legal, hz]; rfl⟩
    | false => exact .inr (.inl ⟨f, hf, hz, by rw [hd, legal, hz]; rfl⟩)
  · exact .inr (.inr h)

end Sys2Proof
end

