-- ==== Sys2Proof/Laws/State.lean ====
section
/-! SUPPORT. One lemma per field per update of State, each true by rfl, so that no later proof unfolds a record update. -/

namespace Sys2Proof.Machine

variable (s : State)

/-! ## `writeW` (Machine/Ops.lean: `W[r] <- v`) -/

@[simp] theorem writeW_w (r : Reg) (v : Word) : (s.writeW r v).w = s.w.set r v := rfl
@[simp] theorem writeW_rk (r : Reg) (v : Word) : (s.writeW r v).rk = s.rk := rfl
@[simp] theorem writeW_kv (r : Reg) (v : Word) : (s.writeW r v).kv = s.kv := rfl
@[simp] theorem writeW_busy (r : Reg) (v : Word) : (s.writeW r v).busy = s.busy := rfl
@[simp] theorem writeW_pend (r : Reg) (v : Word) : (s.writeW r v).pend = s.pend := rfl
@[simp] theorem writeW_kerr (r : Reg) (v : Word) : (s.writeW r v).kerr = s.kerr := rfl
@[simp] theorem writeW_errlen (r : Reg) (v : Word) : (s.writeW r v).errlen = s.errlen := rfl
@[simp] theorem writeW_fault (r : Reg) (v : Word) : (s.writeW r v).fault = s.fault := rfl
@[simp] theorem writeW_fcode (r : Reg) (v : Word) : (s.writeW r v).fcode = s.fcode := rfl
@[simp] theorem writeW_finfo (r : Reg) (v : Word) : (s.writeW r v).finfo = s.finfo := rfl
@[simp] theorem writeW_buf (r : Reg) (v : Word) : (s.writeW r v).buf = s.buf := rfl
@[simp] theorem writeW_params (r : Reg) (v : Word) : (s.writeW r v).params = s.params := rfl
@[simp] theorem writeW_events (r : Reg) (v : Word) : (s.writeW r v).events = s.events := rfl
@[simp] theorem writeW_replies (r : Reg) (v : Word) : (s.writeW r v).replies = s.replies := rfl
@[simp] theorem writeW_draws (r : Reg) (v : Word) : (s.writeW r v).draws = s.draws := rfl
@[simp] theorem writeW_bufByte (r : Reg) (v : Word) (a : Nat) : (s.writeW r v).bufByte a = s.bufByte a := rfl
@[simp] theorem writeW_bufWord (r : Reg) (v : Word) (a : Nat) : (s.writeW r v).bufWord a = s.bufWord a := rfl
@[simp] theorem writeW_bufBlock (r : Reg) (v : Word) (a : Nat) : (s.writeW r v).bufBlock a = s.bufBlock a := rfl

/-! ## `raiseFault` (60_exceptions.md R212) -/

@[simp] theorem raiseFault_w (c : FaultCause) (x : Word) : (s.raiseFault c x).w = s.w := rfl
@[simp] theorem raiseFault_rk (c : FaultCause) (x : Word) : (s.raiseFault c x).rk = s.rk := rfl
@[simp] theorem raiseFault_kv (c : FaultCause) (x : Word) : (s.raiseFault c x).kv = s.kv := rfl
@[simp] theorem raiseFault_busy (c : FaultCause) (x : Word) : (s.raiseFault c x).busy = false := rfl
@[simp] theorem raiseFault_pend (c : FaultCause) (x : Word) : (s.raiseFault c x).pend = s.pend := rfl
@[simp] theorem raiseFault_kerr (c : FaultCause) (x : Word) : (s.raiseFault c x).kerr = s.kerr := rfl
@[simp] theorem raiseFault_errlen (c : FaultCause) (x : Word) : (s.raiseFault c x).errlen = s.errlen := rfl
@[simp] theorem raiseFault_fault (c : FaultCause) (x : Word) : (s.raiseFault c x).fault = true := rfl
@[simp] theorem raiseFault_fcode (c : FaultCause) (x : Word) : (s.raiseFault c x).fcode = c.code := rfl
@[simp] theorem raiseFault_finfo (c : FaultCause) (x : Word) : (s.raiseFault c x).finfo = x := rfl
@[simp] theorem raiseFault_buf (c : FaultCause) (x : Word) : (s.raiseFault c x).buf = s.buf := rfl
@[simp] theorem raiseFault_params (c : FaultCause) (x : Word) : (s.raiseFault c x).params = s.params := rfl
@[simp] theorem raiseFault_events (c : FaultCause) (x : Word) : (s.raiseFault c x).events = s.events := rfl
@[simp] theorem raiseFault_replies (c : FaultCause) (x : Word) : (s.raiseFault c x).replies = s.replies := rfl
@[simp] theorem raiseFault_draws (c : FaultCause) (x : Word) : (s.raiseFault c x).draws = s.draws := rfl
@[simp] theorem raiseFault_readW (c : FaultCause) (x : Word) (r' : Reg) : (s.raiseFault c x).readW r' = s.readW r' := rfl
@[simp] theorem raiseFault_readQ (c : FaultCause) (x : Word) (q' : Quartet) : (s.raiseFault c x).readQ q' = s.readQ q' := rfl
@[simp] theorem raiseFault_descriptor (c : FaultCause) (x : Word) (r' : Reg) : (s.raiseFault c x).descriptor r' = s.descriptor r' := rfl
@[simp] theorem raiseFault_bufByte (c : FaultCause) (x : Word) (a : Nat) : (s.raiseFault c x).bufByte a = s.bufByte a := rfl
@[simp] theorem raiseFault_bufWord (c : FaultCause) (x : Word) (a : Nat) : (s.raiseFault c x).bufWord a = s.bufWord a := rfl
@[simp] theorem raiseFault_bufBlock (c : FaultCause) (x : Word) (a : Nat) : (s.raiseFault c x).bufBlock a = s.bufBlock a := rfl

/-! ## `abortPending` (60_exceptions.md R218) -/

@[simp] theorem abortPending_w : (s.abortPending).w = s.w := rfl
@[simp] theorem abortPending_rk : (s.abortPending).rk = s.rk := rfl
@[simp] theorem abortPending_kv : (s.abortPending).kv = s.kv := rfl
@[simp] theorem abortPending_busy : (s.abortPending).busy = false := rfl
@[simp] theorem abortPending_pend : (s.abortPending).pend = s.pend := rfl
@[simp] theorem abortPending_kerr : (s.abortPending).kerr = s.kerr := rfl
@[simp] theorem abortPending_errlen : (s.abortPending).errlen = s.errlen := rfl
@[simp] theorem abortPending_fault : (s.abortPending).fault = s.fault := rfl
@[simp] theorem abortPending_fcode : (s.abortPending).fcode = s.fcode := rfl
@[simp] theorem abortPending_finfo : (s.abortPending).finfo = s.finfo := rfl
@[simp] theorem abortPending_buf : (s.abortPending).buf = s.buf := rfl
@[simp] theorem abortPending_params : (s.abortPending).params = s.params := rfl
@[simp] theorem abortPending_events : (s.abortPending).events = s.events := rfl
@[simp] theorem abortPending_replies : (s.abortPending).replies = s.replies := rfl
@[simp] theorem abortPending_draws : (s.abortPending).draws = s.draws := rfl
@[simp] theorem abortPending_readW (r' : Reg) : (s.abortPending).readW r' = s.readW r' := rfl
@[simp] theorem abortPending_readQ (q' : Quartet) : (s.abortPending).readQ q' = s.readQ q' := rfl
@[simp] theorem abortPending_descriptor (r' : Reg) : (s.abortPending).descriptor r' = s.descriptor r' := rfl
@[simp] theorem abortPending_bufByte (a : Nat) : (s.abortPending).bufByte a = s.bufByte a := rfl
@[simp] theorem abortPending_bufWord (a : Nat) : (s.abortPending).bufWord a = s.bufWord a := rfl
@[simp] theorem abortPending_bufBlock (a : Nat) : (s.abortPending).bufBlock a = s.bufBlock a := rfl

/-! ## `resetEngine` (70_reset_and_hazards.md R241) -/

@[simp] theorem resetEngine_w : (s.resetEngine).w = Vector.replicate 16 0 := rfl
@[simp] theorem resetEngine_rk : (s.resetEngine).rk = Vector.replicate 32 0 := rfl
@[simp] theorem resetEngine_kv : (s.resetEngine).kv = false := rfl
@[simp] theorem resetEngine_busy : (s.resetEngine).busy = false := rfl
@[simp] theorem resetEngine_pend : (s.resetEngine).pend = 0 := rfl
@[simp] theorem resetEngine_kerr : (s.resetEngine).kerr = false := rfl
@[simp] theorem resetEngine_errlen : (s.resetEngine).errlen = 0 := rfl
@[simp] theorem resetEngine_fault : (s.resetEngine).fault = false := rfl
@[simp] theorem resetEngine_fcode : (s.resetEngine).fcode = 0 := rfl
@[simp] theorem resetEngine_finfo : (s.resetEngine).finfo = 0 := rfl
@[simp] theorem resetEngine_buf : (s.resetEngine).buf = s.buf := rfl
@[simp] theorem resetEngine_params : (s.resetEngine).params = s.params := rfl
@[simp] theorem resetEngine_events : (s.resetEngine).events = s.events := rfl
@[simp] theorem resetEngine_replies : (s.resetEngine).replies = s.replies := rfl
@[simp] theorem resetEngine_draws : (s.resetEngine).draws = s.draws := rfl
@[simp] theorem resetEngine_bufByte (a : Nat) : (s.resetEngine).bufByte a = s.bufByte a := rfl
@[simp] theorem resetEngine_bufWord (a : Nat) : (s.resetEngine).bufWord a = s.bufWord a := rfl
@[simp] theorem resetEngine_bufBlock (a : Nat) : (s.resetEngine).bufBlock a = s.bufBlock a := rfl

/-! ## `complete` (30_encoding.md R96) -/

@[simp] theorem complete_w : (s.complete).w = s.w := rfl
@[simp] theorem complete_rk : (s.complete).rk = s.rk := rfl
@[simp] theorem complete_kv : (s.complete).kv = s.kv := rfl
@[simp] theorem complete_busy : (s.complete).busy = false := rfl
@[simp] theorem complete_pend : (s.complete).pend = s.pend := rfl
@[simp] theorem complete_kerr : (s.complete).kerr = s.kerr := rfl
@[simp] theorem complete_errlen : (s.complete).errlen = s.errlen := rfl
@[simp] theorem complete_fault : (s.complete).fault = s.fault := rfl
@[simp] theorem complete_fcode : (s.complete).fcode = s.fcode := rfl
@[simp] theorem complete_finfo : (s.complete).finfo = s.finfo := rfl
@[simp] theorem complete_buf : (s.complete).buf = s.buf := rfl
@[simp] theorem complete_params : (s.complete).params = s.params := rfl
@[simp] theorem complete_events : (s.complete).events = s.events := rfl
@[simp] theorem complete_replies : (s.complete).replies = s.replies := rfl
@[simp] theorem complete_draws : (s.complete).draws = s.draws := rfl
@[simp] theorem complete_readW (r' : Reg) : (s.complete).readW r' = s.readW r' := rfl
@[simp] theorem complete_readQ (q' : Quartet) : (s.complete).readQ q' = s.readQ q' := rfl
@[simp] theorem complete_descriptor (r' : Reg) : (s.complete).descriptor r' = s.descriptor r' := rfl
@[simp] theorem complete_bufByte (a : Nat) : (s.complete).bufByte a = s.bufByte a := rfl
@[simp] theorem complete_bufWord (a : Nat) : (s.complete).bufWord a = s.bufWord a := rfl
@[simp] theorem complete_bufBlock (a : Nat) : (s.complete).bufBlock a = s.bufBlock a := rfl

/-! ## `setContext` (41_key_schedule.md R156) -/

@[simp] theorem setContext_w (k : Vector Word 32) : (s.setContext k).w = s.w := rfl
@[simp] theorem setContext_rk (k : Vector Word 32) : (s.setContext k).rk = k := rfl
@[simp] theorem setContext_kv (k : Vector Word 32) : (s.setContext k).kv = true := rfl
@[simp] theorem setContext_busy (k : Vector Word 32) : (s.setContext k).busy = s.busy := rfl
@[simp] theorem setContext_pend (k : Vector Word 32) : (s.setContext k).pend = s.pend := rfl
@[simp] theorem setContext_kerr (k : Vector Word 32) : (s.setContext k).kerr = false := rfl
@[simp] theorem setContext_errlen (k : Vector Word 32) : (s.setContext k).errlen = s.errlen := rfl
@[simp] theorem setContext_fault (k : Vector Word 32) : (s.setContext k).fault = s.fault := rfl
@[simp] theorem setContext_fcode (k : Vector Word 32) : (s.setContext k).fcode = s.fcode := rfl
@[simp] theorem setContext_finfo (k : Vector Word 32) : (s.setContext k).finfo = s.finfo := rfl
@[simp] theorem setContext_buf (k : Vector Word 32) : (s.setContext k).buf = s.buf := rfl
@[simp] theorem setContext_params (k : Vector Word 32) : (s.setContext k).params = s.params := rfl
@[simp] theorem setContext_events (k : Vector Word 32) : (s.setContext k).events = s.events := rfl
@[simp] theorem setContext_replies (k : Vector Word 32) : (s.setContext k).replies = s.replies := rfl
@[simp] theorem setContext_draws (k : Vector Word 32) : (s.setContext k).draws = s.draws := rfl
@[simp] theorem setContext_readW (k : Vector Word 32) (r' : Reg) : (s.setContext k).readW r' = s.readW r' := rfl
@[simp] theorem setContext_readQ (k : Vector Word 32) (q' : Quartet) : (s.setContext k).readQ q' = s.readQ q' := rfl
@[simp] theorem setContext_descriptor (k : Vector Word 32) (r' : Reg) : (s.setContext k).descriptor r' = s.descriptor r' := rfl
@[simp] theorem setContext_bufByte (k : Vector Word 32) (a : Nat) : (s.setContext k).bufByte a = s.bufByte a := rfl
@[simp] theorem setContext_bufWord (k : Vector Word 32) (a : Nat) : (s.setContext k).bufWord a = s.bufWord a := rfl
@[simp] theorem setContext_bufBlock (k : Vector Word 32) (a : Nat) : (s.setContext k).bufBlock a = s.bufBlock a := rfl

/-! ## `keySizeError` (43_context_contract.md R195) -/

@[simp] theorem keySizeError_w (n : BitVec 16) : (s.keySizeError n).w = s.w := rfl
@[simp] theorem keySizeError_rk (n : BitVec 16) : (s.keySizeError n).rk = s.rk := rfl
@[simp] theorem keySizeError_kv (n : BitVec 16) : (s.keySizeError n).kv = s.kv := rfl
@[simp] theorem keySizeError_busy (n : BitVec 16) : (s.keySizeError n).busy = s.busy := rfl
@[simp] theorem keySizeError_pend (n : BitVec 16) : (s.keySizeError n).pend = s.pend := rfl
@[simp] theorem keySizeError_kerr (n : BitVec 16) : (s.keySizeError n).kerr = true := rfl
@[simp] theorem keySizeError_errlen (n : BitVec 16) : (s.keySizeError n).errlen = n := rfl
@[simp] theorem keySizeError_fault (n : BitVec 16) : (s.keySizeError n).fault = s.fault := rfl
@[simp] theorem keySizeError_fcode (n : BitVec 16) : (s.keySizeError n).fcode = s.fcode := rfl
@[simp] theorem keySizeError_finfo (n : BitVec 16) : (s.keySizeError n).finfo = s.finfo := rfl
@[simp] theorem keySizeError_buf (n : BitVec 16) : (s.keySizeError n).buf = s.buf := rfl
@[simp] theorem keySizeError_params (n : BitVec 16) : (s.keySizeError n).params = s.params := rfl
@[simp] theorem keySizeError_events (n : BitVec 16) : (s.keySizeError n).events = s.events := rfl
@[simp] theorem keySizeError_replies (n : BitVec 16) : (s.keySizeError n).replies = s.replies := rfl
@[simp] theorem keySizeError_draws (n : BitVec 16) : (s.keySizeError n).draws = s.draws := rfl
@[simp] theorem keySizeError_readW (n : BitVec 16) (r' : Reg) : (s.keySizeError n).readW r' = s.readW r' := rfl
@[simp] theorem keySizeError_readQ (n : BitVec 16) (q' : Quartet) : (s.keySizeError n).readQ q' = s.readQ q' := rfl
@[simp] theorem keySizeError_descriptor (n : BitVec 16) (r' : Reg) : (s.keySizeError n).descriptor r' = s.descriptor r' := rfl
@[simp] theorem keySizeError_bufByte (n : BitVec 16) (a : Nat) : (s.keySizeError n).bufByte a = s.bufByte a := rfl
@[simp] theorem keySizeError_bufWord (n : BitVec 16) (a : Nat) : (s.keySizeError n).bufWord a = s.bufWord a := rfl
@[simp] theorem keySizeError_bufBlock (n : BitVec 16) (a : Nat) : (s.keySizeError n).bufBlock a = s.bufBlock a := rfl

/-! ## `writeQ` (Machine/Operands.lean) -/

@[simp] theorem writeQ_rk (q : Quartet) (x : Block) : (s.writeQ q x).rk = s.rk := rfl
@[simp] theorem writeQ_kv (q : Quartet) (x : Block) : (s.writeQ q x).kv = s.kv := rfl
@[simp] theorem writeQ_busy (q : Quartet) (x : Block) : (s.writeQ q x).busy = s.busy := rfl
@[simp] theorem writeQ_pend (q : Quartet) (x : Block) : (s.writeQ q x).pend = s.pend := rfl
@[simp] theorem writeQ_kerr (q : Quartet) (x : Block) : (s.writeQ q x).kerr = s.kerr := rfl
@[simp] theorem writeQ_errlen (q : Quartet) (x : Block) : (s.writeQ q x).errlen = s.errlen := rfl
@[simp] theorem writeQ_fault (q : Quartet) (x : Block) : (s.writeQ q x).fault = s.fault := rfl
@[simp] theorem writeQ_fcode (q : Quartet) (x : Block) : (s.writeQ q x).fcode = s.fcode := rfl
@[simp] theorem writeQ_finfo (q : Quartet) (x : Block) : (s.writeQ q x).finfo = s.finfo := rfl
@[simp] theorem writeQ_buf (q : Quartet) (x : Block) : (s.writeQ q x).buf = s.buf := rfl
@[simp] theorem writeQ_params (q : Quartet) (x : Block) : (s.writeQ q x).params = s.params := rfl
@[simp] theorem writeQ_events (q : Quartet) (x : Block) : (s.writeQ q x).events = s.events := rfl
@[simp] theorem writeQ_replies (q : Quartet) (x : Block) : (s.writeQ q x).replies = s.replies := rfl
@[simp] theorem writeQ_draws (q : Quartet) (x : Block) : (s.writeQ q x).draws = s.draws := rfl
@[simp] theorem writeQ_bufByte (q : Quartet) (x : Block) (a : Nat) : (s.writeQ q x).bufByte a = s.bufByte a := rfl
@[simp] theorem writeQ_bufWord (q : Quartet) (x : Block) (a : Nat) : (s.writeQ q x).bufWord a = s.bufWord a := rfl
@[simp] theorem writeQ_bufBlock (q : Quartet) (x : Block) (a : Nat) : (s.writeQ q x).bufBlock a = s.bufBlock a := rfl

/-! ## `acceptCommand` (10_state.md R40) -/

@[simp] theorem acceptCommand_w (v : Word) : (s.acceptCommand v).w = s.w := rfl
@[simp] theorem acceptCommand_rk (v : Word) : (s.acceptCommand v).rk = s.rk := rfl
@[simp] theorem acceptCommand_kv (v : Word) : (s.acceptCommand v).kv = s.kv := rfl
@[simp] theorem acceptCommand_busy (v : Word) : (s.acceptCommand v).busy = true := rfl
@[simp] theorem acceptCommand_pend (v : Word) : (s.acceptCommand v).pend = v := rfl
@[simp] theorem acceptCommand_kerr (v : Word) : (s.acceptCommand v).kerr = s.kerr := rfl
@[simp] theorem acceptCommand_errlen (v : Word) : (s.acceptCommand v).errlen = s.errlen := rfl
@[simp] theorem acceptCommand_fault (v : Word) : (s.acceptCommand v).fault = s.fault := rfl
@[simp] theorem acceptCommand_fcode (v : Word) : (s.acceptCommand v).fcode = s.fcode := rfl
@[simp] theorem acceptCommand_finfo (v : Word) : (s.acceptCommand v).finfo = s.finfo := rfl
@[simp] theorem acceptCommand_buf (v : Word) : (s.acceptCommand v).buf = s.buf := rfl
@[simp] theorem acceptCommand_params (v : Word) : (s.acceptCommand v).params = s.params := rfl
@[simp] theorem acceptCommand_events (v : Word) : (s.acceptCommand v).events = s.events := rfl
@[simp] theorem acceptCommand_replies (v : Word) : (s.acceptCommand v).replies = s.replies := rfl
@[simp] theorem acceptCommand_draws (v : Word) : (s.acceptCommand v).draws = s.draws := rfl
@[simp] theorem acceptCommand_readW (v : Word) (r' : Reg) : (s.acceptCommand v).readW r' = s.readW r' := rfl
@[simp] theorem acceptCommand_readQ (v : Word) (q' : Quartet) : (s.acceptCommand v).readQ q' = s.readQ q' := rfl
@[simp] theorem acceptCommand_descriptor (v : Word) (r' : Reg) : (s.acceptCommand v).descriptor r' = s.descriptor r' := rfl
@[simp] theorem acceptCommand_bufByte (v : Word) (a : Nat) : (s.acceptCommand v).bufByte a = s.bufByte a := rfl
@[simp] theorem acceptCommand_bufWord (v : Word) (a : Nat) : (s.acceptCommand v).bufWord a = s.bufWord a := rfl
@[simp] theorem acceptCommand_bufBlock (v : Word) (a : Nat) : (s.acceptCommand v).bufBlock a = s.bufBlock a := rfl

/-! ## `replied` (20_memory.md R62) -/

@[simp] theorem replied_w (o : BitVec 16) (v : Word) : (s.replied o v).w = s.w := rfl
@[simp] theorem replied_rk (o : BitVec 16) (v : Word) : (s.replied o v).rk = s.rk := rfl
@[simp] theorem replied_kv (o : BitVec 16) (v : Word) : (s.replied o v).kv = s.kv := rfl
@[simp] theorem replied_busy (o : BitVec 16) (v : Word) : (s.replied o v).busy = s.busy := rfl
@[simp] theorem replied_pend (o : BitVec 16) (v : Word) : (s.replied o v).pend = s.pend := rfl
@[simp] theorem replied_kerr (o : BitVec 16) (v : Word) : (s.replied o v).kerr = s.kerr := rfl
@[simp] theorem replied_errlen (o : BitVec 16) (v : Word) : (s.replied o v).errlen = s.errlen := rfl
@[simp] theorem replied_fault (o : BitVec 16) (v : Word) : (s.replied o v).fault = s.fault := rfl
@[simp] theorem replied_fcode (o : BitVec 16) (v : Word) : (s.replied o v).fcode = s.fcode := rfl
@[simp] theorem replied_finfo (o : BitVec 16) (v : Word) : (s.replied o v).finfo = s.finfo := rfl
@[simp] theorem replied_buf (o : BitVec 16) (v : Word) : (s.replied o v).buf = s.buf := rfl
@[simp] theorem replied_params (o : BitVec 16) (v : Word) : (s.replied o v).params = s.params := rfl
@[simp] theorem replied_events (o : BitVec 16) (v : Word) : (s.replied o v).events = s.events := rfl
@[simp] theorem replied_replies (o : BitVec 16) (v : Word) : (s.replied o v).replies = ⟨o, v⟩ :: s.replies := rfl
@[simp] theorem replied_draws (o : BitVec 16) (v : Word) : (s.replied o v).draws = if s.readsAny o then s.draws + 1 else s.draws := rfl
@[simp] theorem replied_readW (o : BitVec 16) (v : Word) (r' : Reg) : (s.replied o v).readW r' = s.readW r' := rfl
@[simp] theorem replied_readQ (o : BitVec 16) (v : Word) (q' : Quartet) : (s.replied o v).readQ q' = s.readQ q' := rfl
@[simp] theorem replied_descriptor (o : BitVec 16) (v : Word) (r' : Reg) : (s.replied o v).descriptor r' = s.descriptor r' := rfl
@[simp] theorem replied_bufByte (o : BitVec 16) (v : Word) (a : Nat) : (s.replied o v).bufByte a = s.bufByte a := rfl
@[simp] theorem replied_bufWord (o : BitVec 16) (v : Word) (a : Nat) : (s.replied o v).bufWord a = s.bufWord a := rfl
@[simp] theorem replied_bufBlock (o : BitVec 16) (v : Word) (a : Nat) : (s.replied o v).bufBlock a = s.bufBlock a := rfl

end Sys2Proof.Machine
end

