-- ==== Sys2Proof/Laws/Memory.lean ====
section
/-! SUPPORT. The laws of BUF: a read after a write, and the canonical form that every write keeps. -/

namespace Sys2Proof.Machine

/-! ## One byte -/

theorem written_put_same (m : Memory) (a : Nat) (b : Byte) : (m.put a b).written a = some b := by
  induction m with
  | nil => simp [Memory.put, Memory.written]
  | cons c m ih =>
    simp only [Memory.put]
    split
    · simp [Memory.written]
    · split
      · simp [Memory.written]
      · rename_i h1 h2
        simp [Memory.written, ih, Ne.symm h2]

theorem written_put_other (m : Memory) {a x : Nat} (b : Byte) (h : x ≠ a) :
    (m.put a b).written x = m.written x := by
  induction m with
  | nil => simp [Memory.put, Memory.written, Ne.symm h]
  | cons c m ih =>
    simp only [Memory.put]
    split
    · simp [Memory.written, Ne.symm h]
    · split
      · rename_i h1 h2
        simp [Memory.written, Ne.symm h, ← h2]
      · simp [Memory.written, ih]

/-- A read of a byte after a write of one. -/
theorem written_put (m : Memory) (a x : Nat) (b : Byte) :
    (m.put a b).written x = if x = a then some b else m.written x := by
  split
  · rename_i h; rw [h, written_put_same]
  · rename_i h; rw [written_put_other m b h]

/-- The entries after a write are the one written and entries there were. -/
theorem mem_put {m : Memory} {a : Nat} {b : Byte} {c : Host.Cell} (h : c ∈ m.put a b) : c = (a, b) ∨ c ∈ m := by
  induction m with
  | nil => exact .inl (by simpa [Memory.put] using h)
  | cons d m ih =>
    simp only [Memory.put] at h
    split at h
    · simpa using h
    · split at h
      · rcases List.mem_cons.1 h with h | h
        · exact .inl h
        · exact .inr (List.mem_cons_of_mem _ h)
      · rcases List.mem_cons.1 h with h | h
        · exact .inr (h ▸ List.mem_cons_self)
        · rcases ih h with h | h
          · exact .inl h
          · exact .inr (List.mem_cons_of_mem _ h)

/-- A write keeps the canonical form. -/
theorem wf_put {m : Memory} (h : m.wf) (a : Nat) (b : Byte) : (m.put a b).wf := by
  induction m with
  | nil => simp [Memory.put, Memory.wf]
  | cons c m ih =>
    have hc := List.pairwise_cons.1 h
    simp only [Memory.put]
    split
    · rename_i hlt
      refine List.pairwise_cons.2 ⟨fun d hd => ?_, h⟩
      rcases List.mem_cons.1 hd with rfl | hd
      · exact hlt
      · exact Nat.lt_trans hlt (hc.1 d hd)
    · split
      · rename_i heq
        exact List.pairwise_cons.2 ⟨fun d hd => heq ▸ hc.1 d hd, hc.2⟩
      · rename_i h1 h2
        refine List.pairwise_cons.2 ⟨fun d hd => ?_, ih hc.2⟩
        rcases mem_put hd with rfl | hd
        · exact Nat.lt_of_le_of_ne (Nat.le_of_not_lt h1) (Ne.symm h2)
        · exact hc.1 d hd

/-- Memories in canonical form with the same bytes are the same list. -/
theorem eq_of_written_eq {m n : Memory} (hm : m.wf) (hn : n.wf) (h : ∀ a, m.written a = n.written a) : m = n := by
  have none_of_lt : ∀ {k : Memory} {a : Nat}, (∀ c ∈ k, a < c.1) → k.written a = none := by
    intro k a hk
    induction k with
    | nil => rfl
    | cons c k ih =>
      have := hk c List.mem_cons_self
      simp only [Memory.written]
      rw [if_neg (by omega), ih (fun d hd => hk d (List.mem_cons_of_mem _ hd))]
  induction m generalizing n with
  | nil =>
    cases n with
    | nil => rfl
    | cons d n => have := h d.1; simp [Memory.written, Memory.unlisted] at this
  | cons c m ih =>
    cases n with
    | nil => have := h c.1; simp [Memory.written, Memory.unlisted] at this
    | cons d n =>
      have hc := List.pairwise_cons.1 hm
      have hd := List.pairwise_cons.1 hn
      have heq : c.1 = d.1 := by
        rcases Nat.lt_trichotomy c.1 d.1 with hlt | heq | hlt
        · have := h c.1
          rw [none_of_lt (k := d :: n)] at this
          · simp [Memory.written] at this
          · intro e he
            rcases List.mem_cons.1 he with rfl | he
            · exact hlt
            · exact Nat.lt_trans hlt (hd.1 e he)
        · exact heq
        · have := h d.1
          rw [none_of_lt (k := c :: m)] at this
          · simp [Memory.written] at this
          · intro e he
            rcases List.mem_cons.1 he with rfl | he
            · exact hlt
            · exact Nat.lt_trans hlt (hc.1 e he)
      have hval : c = d := by
        have := h c.1
        simp only [Memory.written, heq, if_true, Option.some.injEq] at this
        exact Prod.ext heq this
      subst hval
      congr 1
      refine ih hc.2 hd.2 (fun a => ?_)
      by_cases ha : c.1 = a
      · subst ha; rw [none_of_lt hc.1, none_of_lt hd.1]
      · have := h a
        simpa [Memory.written, ha] using this

/-! ## A word and a block -/

theorem wf_putWord {m : Memory} (h : m.wf) (a : Nat) (v : Word) : (m.putWord a v).wf :=
  wf_put (wf_put (wf_put (wf_put h _ _) _ _) _ _) _ _

theorem wf_putBlock {m : Memory} (h : m.wf) (a : Nat) (x : Block) : (m.putBlock a x).wf :=
  wf_putWord (wf_putWord (wf_putWord (wf_putWord h _ _) _ _) _ _) _ _

/-- The entries after a word's write lie in the word or were there. -/
theorem mem_putWord {m : Memory} {a : Nat} {v : Word} {c : Host.Cell} (h : c ∈ m.putWord a v) :
    (a ≤ c.1 ∧ c.1 < a + 4) ∨ c ∈ m := by
  simp only [Memory.putWord] at h
  rcases mem_put h with rfl | h
  · exact .inl (by simp)
  · rcases mem_put h with rfl | h
    · exact .inl (by simp)
    · rcases mem_put h with rfl | h
      · exact .inl (by simp)
      · rcases mem_put h with rfl | h
        · exact .inl (by simp)
        · exact .inr h

/-- The entries after a block's write lie in the block or were there. -/
theorem mem_putBlock {m : Memory} {a : Nat} {x : Block} {c : Host.Cell} (h : c ∈ m.putBlock a x) :
    (a ≤ c.1 ∧ c.1 < a + 16) ∨ c ∈ m := by
  simp only [Memory.putBlock] at h
  rcases mem_putWord h with hc | h
  · exact .inl (by omega)
  · rcases mem_putWord h with hc | h
    · exact .inl (by omega)
    · rcases mem_putWord h with hc | h
      · exact .inl (by omega)
      · rcases mem_putWord h with hc | h
        · exact .inl (by omega)
        · exact .inr h

/-- What a byte holds after a word's write (20_memory.md R67). -/
theorem written_putWord (m : Memory) (a x : Nat) (v : Word) :
    (m.putWord a v).written x =
      if x = a + 3 then some (bits v 7 0) else if x = a + 2 then some (bits v 15 8)
      else if x = a + 1 then some (bits v 23 16) else if x = a then some (bits v 31 24) else m.written x := by
  simp only [Memory.putWord, written_put]

/-- A word's write leaves every byte outside it. -/
theorem written_putWord_other (m : Memory) {a x : Nat} (v : Word) (h : ¬(a ≤ x ∧ x < a + 4)) :
    (m.putWord a v).written x = m.written x := by
  rw [written_putWord]
  rw [if_neg (by omega), if_neg (by omega), if_neg (by omega), if_neg (by omega)]

/-- A block's write leaves every byte outside it. -/
theorem written_putBlock_other (m : Memory) {a x : Nat} (b : Block) (h : ¬(a ≤ x ∧ x < a + 16)) :
    (m.putBlock a b).written x = m.written x := by
  simp only [Memory.putBlock]
  rw [written_putWord_other _ _ (by omega), written_putWord_other _ _ (by omega), written_putWord_other _ _ (by omega),
    written_putWord_other _ _ (by omega)]

/-- A word is its four bytes. -/
theorem wordOfBytes_bits (v : Word) : wordOfBytes (bits v 31 24) (bits v 23 16) (bits v 15 8) (bits v 7 0) = v := by
  apply BitVec.eq_of_toNat_eq
  have h : (wordOfBytes (bits v 31 24) (bits v 23 16) (bits v 15 8) (bits v 7 0)).toNat =
      (((bits v 31 24 ++ bits v 23 16 : BitVec (8 + 8)) ++ bits v 15 8 : BitVec (8 + 8 + 8)) ++ bits v 7 0 :
        BitVec (8 + 8 + 8 + 8)).toNat := rfl
  have hv := v.isLt
  rw [h]
  simp only [BitVec.toNat_append, Nat.shiftLeft_eq, Nat.mul_comm _ (2 ^ _),
    ← Nat.two_pow_add_eq_or_of_lt (bits v 23 16).isLt, ← Nat.two_pow_add_eq_or_of_lt (bits v 15 8).isLt,
    ← Nat.two_pow_add_eq_or_of_lt (bits v 7 0).isLt]
  simp only [bits, BitVec.extractLsb_toNat, Nat.shiftRight_eq_div_pow]
  omega

/-- Reading a word where one was written gives it. -/
theorem bufWord_putWord_same (s : State) (a : Nat) (v : Word) :
    { s with buf := s.buf.putWord a v }.bufWord a = v := by
  simp [State.bufWord, State.bufByte, written_putWord, wordOfBytes_bits]

/-- Reading a word clear of the one written gives what was there. -/
theorem bufWord_putWord_other (s : State) {a x : Nat} (v : Word) (h : x + 4 ≤ a ∨ a + 4 ≤ x) :
    { s with buf := s.buf.putWord a v }.bufWord x = s.bufWord x := by
  simp only [State.bufWord, State.bufByte]
  rw [written_putWord_other _ _ (by omega), written_putWord_other _ _ (by omega), written_putWord_other _ _ (by omega),
    written_putWord_other _ _ (by omega)]

/-- Reading a block where one was written gives it. -/
theorem bufBlock_putBlock_same (s : State) (a : Nat) (x : Block) :
    { s with buf := s.buf.putBlock a x }.bufBlock a = x := by
  have e : ∀ (m : Memory) (c : Nat) (v : Word), { s with buf := m.putWord c v }.bufWord c = v :=
    fun m c v => bufWord_putWord_same { s with buf := m } c v
  have o : ∀ (m : Memory) (c d : Nat) (v : Word), d + 4 ≤ c ∨ c + 4 ≤ d →
      { s with buf := m.putWord c v }.bufWord d = { s with buf := m }.bufWord d :=
    fun m c d v h => bufWord_putWord_other { s with buf := m } v h
  simp only [State.bufBlock, Memory.putBlock]
  rw [e, o _ _ _ _ (by omega), o _ _ _ _ (by omega), o _ _ _ _ (by omega), e, o _ _ _ _ (by omega),
    o _ _ _ _ (by omega), e, o _ _ _ _ (by omega), e]

/-- A block's write leaves every byte outside it, as the engine reads it. -/
theorem bufByte_putBlock_other (s : State) {a x : Nat} (b : Block) (h : ¬(a ≤ x ∧ x < a + 16)) :
    { s with buf := s.buf.putBlock a b }.bufByte x = s.bufByte x := by
  simp only [State.bufByte]
  rw [written_putBlock_other _ _ h]

/-- A word's write leaves every byte outside it, as the engine reads it. -/
theorem bufByte_putWord_other (s : State) {a x : Nat} (v : Word) (h : ¬(a ≤ x ∧ x < a + 4)) :
    { s with buf := s.buf.putWord a v }.bufByte x = s.bufByte x := by
  simp only [State.bufByte]
  rw [written_putWord_other _ _ h]

end Sys2Proof.Machine
end

