-- ==== Sys2Proof/Laws/Ops.lean ====
section
/-! SUPPORT. What each shared operation over registers, quartets and BUF can do, said once; the provers cite these and do
not unfold the operations. -/

namespace Sys2Proof.Machine

/-! ## Registers -/

@[simp] theorem readW_writeW_same (s : State) (r : Reg) (v : Word) : (s.writeW r v).readW r = v := by
  simp [State.readW, State.writeW]

theorem readW_writeW_other (s : State) {r x : Reg} (v : Word) (h : x ≠ r) : (s.writeW r v).readW x = s.readW x := by
  have h' : r.val ≠ x.val := fun e => h (Fin.ext e.symm)
  simp [State.readW, State.writeW, h']

/-- A read of W after a write of one (00_scope.md R11). -/
theorem readW_writeW (s : State) (r x : Reg) (v : Word) :
    (s.writeW r v).readW x = if x = r then v else s.readW x := by
  split
  · rename_i h; rw [h, readW_writeW_same]
  · rename_i h; rw [readW_writeW_other s v h]

/-- The register files hold 0 after reset (10_state.md R49). -/
@[simp] theorem resetEngine_readW (s : State) (r : Reg) : s.resetEngine.readW r = 0 := by
  simp [State.readW]

@[simp] theorem resetEngine_readRK (s : State) (i : RoundIndex) : s.resetEngine.readRK i = 0 := by
  simp [State.readRK]

@[simp] theorem resetWith_readW (p : Params) (r : Reg) : (State.resetWith p).readW r = 0 := by
  simp [State.readW, State.resetWith]

@[simp] theorem resetWith_readRK (p : Params) (i : RoundIndex) : (State.resetWith p).readRK i = 0 := by
  simp [State.readRK, State.resetWith]

/-! ## Quartets -/

/-- Two quartet registers are one only when quartet and place agree (10_state.md R22: quartets never overlap). -/
theorem quartetReg_inj {q p : Quartet} {j k : Fin 4} : quartetReg q j = quartetReg p k ↔ q = p ∧ j = k := by
  constructor
  · intro h
    have := congrArg Fin.val h
    simp only [quartetReg] at this
    exact ⟨Fin.ext (by omega), Fin.ext (by omega)⟩
  · rintro ⟨rfl, rfl⟩; rfl

/-- The registers of quartet q are those whose number divided by 4 is q. -/
theorem quartetReg_div (q : Quartet) (j : Fin 4) : (quartetReg q j).val / 4 = q.val := by
  simp only [quartetReg]; omega

/-- A quartet read after it was written gives what was written. -/
@[simp] theorem readQ_writeQ_same (s : State) (q : Quartet) (x : Block) : (s.writeQ q x).readQ q = x := by
  have h : ∀ j k : Fin 4, quartetReg q j = quartetReg q k ↔ j = k := by simp [quartetReg_inj]
  simp only [State.readQ, State.writeQ, readW_writeW, h]
  simp

/-- A quartet's write leaves every register outside it. -/
theorem readW_writeQ_other (s : State) {q : Quartet} (x : Block) {r : Reg} (h : r.val / 4 ≠ q.val) :
    (s.writeQ q x).readW r = s.readW r := by
  have hne : ∀ j, r ≠ quartetReg q j := fun j e => h (by rw [e, quartetReg_div])
  simp [State.writeQ, readW_writeW, hne]

/-- A quartet's write leaves every other quartet. -/
theorem readQ_writeQ_other (s : State) {q p : Quartet} (x : Block) (h : p ≠ q) :
    (s.writeQ q x).readQ p = s.readQ p := by
  have hne : ∀ j, (quartetReg p j).val / 4 ≠ q.val := fun j e => h (Fin.ext (by rw [← e, quartetReg_div]))
  simp [State.readQ, readW_writeQ_other s x (hne _)]

/-! ## BUF -/

/-- MemRead(a, 16) of bytes that exist answers them. -/
theorem memRead16_ok {s : State} {a : Nat} (h : a + 16 ≤ s.params.bufBytes) : s.memRead16 a = .ok (s.bufBlock a) := by
  simp [State.memRead16, State.bytesExist, h]

/-- MemRead(a, 4) of bytes that exist answers them. -/
theorem memRead4_ok {s : State} {a : Nat} (h : a + 4 ≤ s.params.bufBytes) : s.memRead4 a = .ok (s.bufWord a) := by
  simp [State.memRead4, State.bytesExist, h]

/-- MemWrite(a, 16, x) of bytes that exist writes them. -/
theorem memWrite16_ok {s : State} {a : Nat} (x : Block) (h : a + 16 ≤ s.params.bufBytes) :
    s.memWrite16 a x = .ok { s with buf := s.buf.putBlock a x } := by
  simp [State.memWrite16, State.bytesExist, h]

/-- MemWrite(a, 4, v) of bytes that exist writes them. -/
theorem memWrite4_ok {s : State} {a : Nat} (v : Word) (h : a + 4 ≤ s.params.bufBytes) :
    s.memWrite4 a v = .ok { s with buf := s.buf.putWord a v } := by
  simp [State.memWrite4, State.bytesExist, h]

/-- BUF_BYTES is a legal value (00_scope.md R7). -/
theorem bufBytes_legal (p : Params) : p.bufBytes % 16 = 0 ∧ 16 ≤ p.bufBytes ∧ p.bufBytes ≤ 4096 := by
  have := p.bufUnits.isLt
  simp only [Params.bufBytes]
  omega

/-- Every legal value of BUF_BYTES is one of the parameters (00_scope.md R7). -/
theorem exists_params_of_legal {n : Nat} (h : n % 16 = 0) (h1 : 16 ≤ n) (h2 : n ≤ 4096) :
    ∃ p : Params, p.bufBytes = n :=
  ⟨⟨⟨n / 16 - 1, by omega⟩⟩, by simp only [Params.bufBytes]; omega⟩

/-! ## The checks of ENCM and DECM -/

/-- The partial overlap of R194, as offsets. -/
theorem inexactOverlap_iff (soff doff : Nat) :
    inexactOverlap soff doff = true ↔ soff ≠ doff ∧ soff < doff + 16 ∧ doff < soff + 16 := by
  simp only [inexactOverlap, Bool.and_eq_true, bne_iff_ne, ne_eq, decide_eq_true_eq]
  constructor
  · rintro ⟨h1, h2⟩; exact ⟨h1, by omega, by omega⟩
  · rintro ⟨h1, h2, h3⟩; exact ⟨h1, by omega⟩

/-- The checks all hold exactly when none answers (43_context_contract.md R198). -/
theorem checkBlockCall_none_iff (s : State) (dst src : Descriptor) :
    s.checkBlockCall dst src = none ↔ BlockCallOk s dst src := by
  constructor
  · intro h
    simp only [State.checkBlockCall, State.inRange] at h
    by_cases h1 : s.kv = true <;> by_cases h2 : src.len.toNat < 16 <;> by_cases h3 : dst.len.toNat < 16 <;>
      by_cases h4 : src.off + src.len.toNat ≤ s.params.bufBytes <;>
      by_cases h5 : dst.off + dst.len.toNat ≤ s.params.bufBytes <;>
      by_cases h6 : inexactOverlap src.off dst.off = true <;> simp [h1, h2, h3, h4, h5, h6] at h
    rw [inexactOverlap_iff] at h6
    exact ⟨h1, by omega, by omega, h4, h5, by omega⟩
  · rintro ⟨h1, h2, h3, h4, h5, h6⟩
    have h7 : inexactOverlap src.off dst.off = false := by
      rw [← Bool.not_eq_true, inexactOverlap_iff]; omega
    simp [State.checkBlockCall, State.inRange, h1, h4, h5, h7, Nat.not_lt.2 h2, Nat.not_lt.2 h3]

/-- A check that fails gives one of the codes 2..5 (60_exceptions.md R211). -/
theorem checkBlockCall_code {s : State} {dst src : Descriptor} {c : FaultCause}
    (h : s.checkBlockCall dst src = some c) : 2 ≤ c.code.toNat ∧ c.code.toNat ≤ 5 := by
  have hc : c = .noKey ∨ c = .bufSize ∨ c = .range ∨ c = .partialOverlap := by
    unfold State.checkBlockCall at h
    repeat' split at h
    all_goals simp_all
  rcases hc with rfl | rfl | rfl | rfl <;> decide

/-! ## The shapes of commands -/

/-- Everything a block command on BUF can do: the checks hold and the block is stored, or the first check that fails is
taken as a fault. It never stops. -/
theorem bufferCall_cases (s : State) (f : Vector Word 32 → Block → Block) (dst src : Descriptor) :
    (BlockCallOk s dst src ∧
      s.bufferCall f dst src =
        .next ({ s with buf := s.buf.putBlock dst.off (f s.rk (s.bufBlock src.off)) } : State).complete) ∨
    (¬BlockCallOk s dst src ∧ ∃ c, s.checkBlockCall dst src = some c ∧
      s.bufferCall f dst src = .next (s.raiseFault c s.pend)) := by
  cases h : s.checkBlockCall dst src with
  | none =>
    have ok := (checkBlockCall_none_iff s dst src).1 h
    have h1 := ok.srcLen; have h2 := ok.dstLen; have h3 := ok.srcRange; have h4 := ok.dstRange
    refine .inl ⟨ok, ?_⟩
    simp [State.bufferCall, h, memRead16_ok (s := s) (a := src.off) (by omega),
      memWrite16_ok (s := s) (a := dst.off) _ (by omega)]
  | some c =>
    refine .inr ⟨fun ok => ?_, c, rfl, by simp [State.bufferCall, h]⟩
    rw [(checkBlockCall_none_iff s dst src).2 ok] at h
    cases h

/-- Everything KEYEXPM can do (43_context_contract.md R192). It never stops. -/
theorem execKeyexpm_cases (wk : Reg) (s : State) :
    ((s.descriptor wk).len.toNat ≠ 16 ∧
      execKeyexpm wk s = .next (s.keySizeError (s.descriptor wk).len).complete) ∨
    ((s.descriptor wk).len.toNat = 16 ∧ s.params.bufBytes < (s.descriptor wk).off + 16 ∧
      execKeyexpm wk s = .next (s.raiseFault .range s.pend)) ∨
    ((s.descriptor wk).len.toNat = 16 ∧ (s.descriptor wk).off + 16 ≤ s.params.bufBytes ∧
      execKeyexpm wk s =
        .next (s.setContext (Cipher.expandKey (s.bufBlock (s.descriptor wk).off))).complete) := by
  by_cases h1 : (s.descriptor wk).len.toNat = 16
  · by_cases h2 : (s.descriptor wk).off + 16 ≤ s.params.bufBytes
    · refine .inr (.inr ⟨h1, h2, ?_⟩)
      simp [execKeyexpm, h1, State.inRange, h2, memRead16_ok h2]
    · refine .inr (.inl ⟨h1, by omega, ?_⟩)
      simp [execKeyexpm, h1, State.inRange, h2]
  · exact .inl ⟨h1, by simp [execKeyexpm, h1]⟩

end Sys2Proof.Machine
end

