-- ==== Sys2Proof/Laws/Step.lean ====
section
/-! SUPPORT. Everything a command, an action of the outside world and a step can do, said once: the inversion lemmas the
provers cite. -/

namespace Sys2Proof.Machine

/-- A quartet's write changes W and nothing else. -/
theorem writeQ_eq (s : State) (q : Quartet) (x : Block) : ∃ w, s.writeQ q x = { s with w := w } :=
  ⟨_, rfl⟩

/-- Everything a command can do: it writes W; or sets up a context (KEYEXP, KEYEXPM); or takes the key-size error (KEYEXPM);
or stores a block inside BUF (ENCM, DECM); or takes a fault. It never stops. -/
theorem exec_cases (i : Instr) (s : State) :
    (∃ w, exec i s = .next ({ s with w := w } : State).complete) ∨
    (((∃ q, i = .keyexp q) ∨ ∃ r, i = .keyexpm r) ∧
      ∃ mk, exec i s = .next (s.setContext (Cipher.expandKey mk)).complete) ∨
    (∃ r, i = .keyexpm r ∧ (s.descriptor r).len.toNat ≠ 16 ∧
      exec i s = .next (s.keySizeError (s.descriptor r).len).complete) ∨
    (∃ d r x, (i = .encm d r ∨ i = .decm d r) ∧ (s.descriptor d).off + 16 ≤ s.params.bufBytes ∧
      exec i s = .next ({ s with buf := s.buf.putBlock (s.descriptor d).off x } : State).complete) ∨
    (∃ c : FaultCause, 2 ≤ c.code.toNat ∧ c.code.toNat ≤ 5 ∧ exec i s = .next (s.raiseFault c s.pend)) := by
  have quartet : ∀ f qd qs, (∃ w, s.quartetCall f qd qs = ({ s with w := w } : State).complete) ∨
      s.quartetCall f qd qs = s.raiseFault .noKey s.pend := by
    intro f qd qs
    unfold State.quartetCall
    split
    · exact .inl ⟨_, rfl⟩
    · exact .inr rfl
  have buffer : ∀ f d r, (i = .encm d r ∨ i = .decm d r) → exec i s = s.bufferCall f (s.descriptor d) (s.descriptor r) →
      (∃ d r x, (i = .encm d r ∨ i = .decm d r) ∧ (s.descriptor d).off + 16 ≤ s.params.bufBytes ∧
        exec i s = .next ({ s with buf := s.buf.putBlock (s.descriptor d).off x } : State).complete) ∨
      (∃ c : FaultCause, 2 ≤ c.code.toNat ∧ c.code.toNat ≤ 5 ∧ exec i s = .next (s.raiseFault c s.pend)) := by
    intro f d r hi he
    rcases bufferCall_cases s f (s.descriptor d) (s.descriptor r) with ⟨ok, h⟩ | ⟨-, c, hc, h⟩
    · have := ok.dstLen; have := ok.dstRange
      exact .inl ⟨d, r, _, hi, by omega, he.trans h⟩
    · exact .inr ⟨c, (checkBlockCall_code hc).1, (checkBlockCall_code hc).2, he.trans h⟩
  cases i with
  | nop => exact .inl ⟨s.w, rfl⟩
  | sbox wd ws => exact .inl ⟨_, rfl⟩
  | tau wd ws => exact .inl ⟨_, rfl⟩
  | lenc wd ws => exact .inl ⟨_, rfl⟩
  | lkey wd ws => exact .inl ⟨_, rfl⟩
  | tenc wd ws => exact .inl ⟨_, rfl⟩
  | tkey wd ws => exact .inl ⟨_, rfl⟩
  | xor wd ws1 ws2 => exact .inl ⟨_, rfl⟩
  | rnd qd ws => exact .inl ⟨_, rfl⟩
  | krnd qd k => exact .inl ⟨_, rfl⟩
  | fkx qd => exact .inl ⟨_, rfl⟩
  | rev qd => exact .inl ⟨_, rfl⟩
  | keyexp qs => exact .inr (.inl ⟨.inl ⟨qs, rfl⟩, _, rfl⟩)
  | enc qd qs =>
    rcases quartet Cipher.encryptBlock qd qs with ⟨w, h⟩ | h
    · exact .inl ⟨w, congrArg _ h⟩
    · exact .inr (.inr (.inr (.inr ⟨.noKey, by decide, by decide, congrArg _ h⟩)))
  | dec qd qs =>
    rcases quartet Cipher.decryptBlock qd qs with ⟨w, h⟩ | h
    · exact .inl ⟨w, congrArg _ h⟩
    · exact .inr (.inr (.inr (.inr ⟨.noKey, by decide, by decide, congrArg _ h⟩)))
  | keyexpm wk =>
    rcases execKeyexpm_cases wk s with ⟨h1, h⟩ | ⟨-, -, h⟩ | ⟨-, -, h⟩
    · exact .inr (.inr (.inl ⟨wk, rfl, h1, h⟩))
    · exact .inr (.inr (.inr (.inr ⟨.range, by decide, by decide, h⟩)))
    · exact .inr (.inl ⟨.inr ⟨wk, rfl⟩, _, h⟩)
  | encm wdst wsrc => exact .inr (.inr (.inr (buffer _ wdst wsrc (.inl rfl) rfl)))
  | decm wdst wsrc => exact .inr (.inr (.inr (buffer _ wdst wsrc (.inr rfl) rfl)))

/-- Whose turn it is, as the machine decides it (30_encoding.md R96). -/
theorem engineNext_iff (s : State) : s.engineNext = true ↔ EnginesTurn s := by
  constructor
  · intro h
    unfold State.engineNext at h
    rw [Bool.and_eq_true] at h
    refine ⟨h.1, fun e rest he => ?_⟩
    rw [he] at h
    simpa using h.2
  · rintro ⟨hb, he⟩
    unfold State.engineNext
    cases hs : s.events with
    | nil => simp [hb]
    | cons e rest => simp [hb, he e rest hs]

/-- A choice between answers is an answer. -/
theorem ite_ok {c : Prop} [Decidable c] {x y : Except Fault Word} (hx : c → ∃ v, x = .ok v)
    (hy : ∃ v, y = .ok v) : ∃ v, (if c then x else y) = .ok v := by
  by_cases h : c
  · rw [if_pos h]; exact hx h
  · rw [if_neg h]; exact hy

/-- Everything a HostRead can return: a word; it stops on no offset (20_memory.md R62). -/
theorem hostRead_ok (s : State) {off : BitVec 16} (h : off.toNat % 4 = 0) : ∃ v, s.hostRead off = .ok v := by
  have hp := bufBytes_legal s.params
  have word : ∀ w : Word, ∃ v, (.ok w : Except Fault Word) = .ok v := fun w => ⟨w, rfl⟩
  unfold State.hostRead
  refine ite_ok (fun _ => word _) (ite_ok (fun _ => word _) (ite_ok (fun _ => word _) (ite_ok (fun _ => word _)
    (ite_ok (fun _ => word _) (ite_ok (fun _ => word _) (ite_ok (fun _ => word _)
    (ite_ok (fun _ => ite_ok (fun _ => word _) (word _)) (ite_ok (fun _ => ite_ok (fun _ => word _) (word _))
    (ite_ok (fun hB => ite_ok (fun _ => word _) ⟨_, memRead4_ok ?_⟩) (word _))))))))))
  unfold inBufWindow at hB
  omega

/-- Everything a HostWrite can do (20_memory.md R63): reset; nothing; a BUSYWR fault; accept a command; write a W register;
or write a word inside BUF. It stops on no offset. -/
theorem hostWrite_cases (s : State) {off : BitVec 16} (v : Word) (h : off.toNat % 4 = 0) :
    (off.toNat = 0x0008 ∧ v.getLsbD 0 = true ∧ s.hostWrite off v = .ok s.resetEngine) ∨
    s.hostWrite off v = .ok s ∨
    (s.fault = false ∧ s.busy = true ∧ s.hostWrite off v = .ok (s.abortPending.raiseFault .busyWrite (off.setWidth 32))) ∨
    (s.fault = false ∧ s.busy = false ∧ s.hostWrite off v = .ok (s.acceptCommand v)) ∨
    (s.fault = false ∧ s.busy = false ∧ ∃ r, s.hostWrite off v = .ok (s.writeW r v)) ∨
    (s.fault = false ∧ s.busy = false ∧ ∃ a, a + 4 ≤ s.params.bufBytes ∧
      s.hostWrite off v = .ok { s with buf := s.buf.putWord a v }) := by
  have hp := bufBytes_legal s.params
  unfold State.hostWrite
  simp only
  by_cases h8 : off.toNat = 0x0008
  · rw [if_pos h8]
    by_cases hv : v.getLsbD 0 = true
    · exact .inl ⟨h8, hv, by rw [if_pos hv]⟩
    · exact .inr (.inl (by rw [if_neg hv]))
  rw [if_neg h8]
  by_cases hf : s.fault = true
  · exact .inr (.inl (by rw [if_pos hf]))
  rw [if_neg hf]
  have hf' : s.fault = false := by simpa using hf
  by_cases hb : s.busy = true
  · exact .inr (.inr (.inl ⟨hf', hb, by rw [if_pos hb]⟩))
  rw [if_neg hb]
  have hb' : s.busy = false := by simpa using hb
  by_cases hC : off.toNat = 0x000C
  · exact .inr (.inr (.inr (.inl ⟨hf', hb', by rw [if_pos hC]⟩)))
  rw [if_neg hC]
  by_cases hW : inWWindow off.toNat
  · exact .inr (.inr (.inr (.inr (.inl ⟨hf', hb', _, by rw [if_pos hW]⟩))))
  rw [if_neg hW]
  by_cases hB : inBufWindow s.params off.toNat
  · have ha : off.toNat - 0x1000 + 4 ≤ s.params.bufBytes := by unfold inBufWindow at hB; omega
    exact .inr (.inr (.inr (.inr (.inr ⟨hf', hb', off.toNat - 0x1000, ha, by
      rw [if_pos hB, memWrite4_ok v ha]⟩))))
  · exact .inr (.inl (by rw [if_neg hB]))

/-- Everything a step can do: the engine step of the pending command, when it is the engine's turn; else the next event;
else nothing. -/
theorem step_cases (s : State) :
    (EnginesTurn s ∧ step s = engineStep s) ∨
    (¬EnginesTurn s ∧ ∃ e rest, s.events = e :: rest ∧ step s = takeAction e.action { s with events := rest }) ∨
    (¬EnginesTurn s ∧ s.events = [] ∧ s.busy = false ∧ step s = .next s) := by
  by_cases h : EnginesTurn s
  · exact .inl ⟨h, by simp [step, advance, (engineNext_iff s).2 h]⟩
  · have hn : s.engineNext = false := by rw [← Bool.not_eq_true, engineNext_iff]; exact h
    cases he : s.events with
    | nil =>
      refine .inr (.inr ⟨h, rfl, ?_, by simp [step, advance, hn, he]⟩)
      cases hb : s.busy with
      | false => rfl
      | true => exact absurd ⟨hb, fun e rest h' => by rw [he] at h'; cases h'⟩ h
    | cons e rest => exact .inr (.inl ⟨h, e, rest, rfl, by simp [step, advance, hn, he]⟩)

/-- Everything an expressible action can do. -/
theorem takeAction_cases (a : Action) (s : State) (h : a.expressible = true) :
    (a = .reset ∧ takeAction a s = .next s.resetEngine) ∨
    (∃ off v, a = .read off ∧ takeAction a s = .next (s.replied off v)) ∨
    (∃ off v t, a = .write off v ∧ off.toNat % 4 = 0 ∧ s.hostWrite off v = .ok t ∧ takeAction a s = .next t) := by
  cases a with
  | reset => exact .inl ⟨rfl, rfl⟩
  | read off =>
    have h4 : off.toNat % 4 = 0 := by simpa [Action.expressible] using h
    obtain ⟨v, hv⟩ := hostRead_ok s h4
    exact .inr (.inl ⟨off, v, rfl, by simp [takeAction, h4, hv]⟩)
  | write off v =>
    have h4 : off.toNat % 4 = 0 := by simpa [Action.expressible] using h
    have : ∃ t, s.hostWrite off v = .ok t := by
      rcases hostWrite_cases s v h4 with ⟨-, -, h⟩ | h | ⟨-, -, h⟩ | ⟨-, -, h⟩ | ⟨-, -, _, h⟩ | ⟨-, -, _, -, h⟩ <;>
        exact ⟨_, h⟩
    obtain ⟨t, ht⟩ := this
    exact .inr (.inr ⟨off, v, t, rfl, h4, ht, by simp [takeAction, h4, ht]⟩)

/-- An action that is not expressible is refused. -/
theorem takeAction_inexpressible (a : Action) (s : State) (h : a.expressible = false) :
    ∃ off, takeAction a s = .refused (.hostAccessNotExpressible off) := by
  cases a with
  | reset => cases h
  | read off =>
    have h4 : off.toNat % 4 ≠ 0 := by simpa [Action.expressible] using h
    exact ⟨off, by simp [takeAction, h4]⟩
  | write off v =>
    have h4 : off.toNat % 4 ≠ 0 := by simpa [Action.expressible] using h
    exact ⟨off, by simp [takeAction, h4]⟩

end Sys2Proof.Machine
end

