-- ==== Sys2Proof/Laws/Exec.lean ====
section
/-! SUPPORT. What each command answers, as an equation (the provers rewrite with these and unfold no meaning), and that each
shared end of a command leaves the frame its statement names. -/

namespace Sys2Proof.Machine

/-! ## Frames of the shared operations -/

/-- A completed command that wrote W alone changed nothing but W. -/
theorem onlyWChanges_w (s : State) (w : Vector Word 16) : OnlyWChanges s ({ s with w := w } : State).complete :=
  ⟨rfl, ⟨rfl, rfl⟩, ⟨rfl, rfl⟩, ⟨rfl, rfl, rfl⟩, fun _ => rfl, ⟨rfl, rfl, rfl, rfl, rfl⟩⟩

theorem registerWritten_writeW (s : State) (wd : Reg) (v : Word) : RegisterWritten s (s.writeW wd v).complete wd v :=
  ⟨by simp, fun r h => by simp [readW_writeW_other s v h], onlyWChanges_w s _⟩

theorem quartetWritten_writeQ (s : State) (qd : Quartet) (x : Block) : QuartetWritten s (s.writeQ qd x).complete qd x :=
  ⟨by simp, fun r h => by simp [readW_writeQ_other s x h], onlyWChanges_w s _⟩

/-- Fault entry makes the four writes of 60_exceptions.md R212 and no other. -/
theorem faultTaken_raiseFault (s : State) (c : FaultCause) (info : Word) :
    FaultTaken s (s.raiseFault c info) c.code info :=
  ⟨rfl, rfl, rfl, rfl, fun _ => rfl, ⟨rfl, rfl⟩, ⟨rfl, rfl⟩, fun _ => rfl, ⟨rfl, rfl, rfl, rfl, rfl⟩⟩

theorem contextSet_setContext (s : State) (rk : Vector Word 32) : ContextSet s (s.setContext rk).complete rk :=
  ⟨rfl, rfl, rfl, rfl, rfl, fun _ => rfl, ⟨rfl, rfl, rfl⟩, fun _ => rfl, ⟨rfl, rfl, rfl, rfl, rfl⟩⟩

theorem keySizeErrorTaken_keySizeError (s : State) (len : BitVec 16) :
    KeySizeErrorTaken s (s.keySizeError len).complete len :=
  ⟨rfl, rfl, rfl, fun _ => rfl, ⟨rfl, rfl⟩, ⟨rfl, rfl, rfl⟩, fun _ => rfl, ⟨rfl, rfl, rfl, rfl, rfl⟩⟩

theorem blockStored_putBlock (s : State) (a : Nat) (x : Block) :
    BlockStored s ({ s with buf := s.buf.putBlock a x } : State).complete a x :=
  ⟨by rw [complete_bufBlock, bufBlock_putBlock_same], fun b h => by rw [complete_bufByte, bufByte_putBlock_other s x h],
    rfl, fun _ => rfl, ⟨rfl, rfl⟩, ⟨rfl, rfl⟩, ⟨rfl, rfl, rfl⟩, ⟨rfl, rfl, rfl, rfl, rfl⟩⟩

theorem wordStored_putWord (s : State) (a : Nat) (v : Word) :
    WordStored s { s with buf := s.buf.putWord a v } a v where
  byte0 := by simp [State.bufByte, written_putWord]
  byte1 := by simp [State.bufByte, written_putWord]
  byte2 := by simp [State.bufByte, written_putWord]
  byte3 := by simp [State.bufByte, written_putWord]
  otherBytes := fun _ h => bufByte_putWord_other s v h
  busy := rfl
  w := fun _ => rfl
  context := ⟨rfl, rfl⟩
  keyError := ⟨rfl, rfl⟩
  fault := ⟨rfl, rfl, rfl⟩
  rest := ⟨rfl, rfl, rfl, rfl, rfl⟩

theorem resetTaken_resetEngine (s : State) : ResetTaken s s.resetEngine :=
  ⟨resetEngine_readW s, resetEngine_readRK s, rfl, rfl, rfl, rfl, rfl, rfl, rfl, rfl, fun _ => rfl, rfl⟩

/-! ## What each command answers -/

section
variable (s : State)

theorem exec_nop : exec .nop s = .next s.complete := rfl
theorem exec_sbox (wd ws : Reg) : exec (.sbox wd ws) s =
    .next (s.writeW wd ((Cipher.S (bits (s.readW ws) 7 0)).setWidth 32)).complete := rfl
theorem exec_tau (wd ws : Reg) : exec (.tau wd ws) s = .next (s.writeW wd (Cipher.tau (s.readW ws))).complete := rfl
theorem exec_lenc (wd ws : Reg) : exec (.lenc wd ws) s = .next (s.writeW wd (Cipher.L (s.readW ws))).complete := rfl
theorem exec_lkey (wd ws : Reg) : exec (.lkey wd ws) s = .next (s.writeW wd (Cipher.Lk (s.readW ws))).complete := rfl
theorem exec_tenc (wd ws : Reg) : exec (.tenc wd ws) s = .next (s.writeW wd (Cipher.T (s.readW ws))).complete := rfl
theorem exec_tkey (wd ws : Reg) : exec (.tkey wd ws) s = .next (s.writeW wd (Cipher.Tk (s.readW ws))).complete := rfl
theorem exec_xor (wd ws1 ws2 : Reg) : exec (.xor wd ws1 ws2) s =
    .next (s.writeW wd (s.readW ws1 ^^^ s.readW ws2)).complete := rfl
theorem exec_rnd (qd : Quartet) (ws : Reg) : exec (.rnd qd ws) s =
    .next (s.writeQ qd (Cipher.encRound (s.readQ qd) (s.readW ws))).complete := rfl
theorem exec_krnd (qd : Quartet) (i : RoundIndex) : exec (.krnd qd i) s =
    .next (s.writeQ qd (Cipher.keyRound (s.readQ qd) (Cipher.CK i))).complete := rfl
theorem exec_fkx (qd : Quartet) : exec (.fkx qd) s = .next (s.writeQ qd (Cipher.whiten (s.readQ qd))).complete := rfl
theorem exec_rev (qd : Quartet) : exec (.rev qd) s =
    .next (s.writeQ qd (Cipher.reverseWords (s.readQ qd))).complete := rfl
theorem exec_keyexp (qs : Quartet) : exec (.keyexp qs) s =
    .next (s.setContext (Cipher.expandKey (s.readQ qs))).complete := rfl

variable {s}

theorem exec_enc_key (h : s.kv = true) (qd qs : Quartet) : exec (.enc qd qs) s =
    .next (s.writeQ qd (Cipher.encryptBlock s.rk (s.readQ qs))).complete := by
  simp [exec, execEnc, State.quartetCall, h]

theorem exec_enc_noKey (h : s.kv = false) (qd qs : Quartet) : exec (.enc qd qs) s =
    .next (s.raiseFault .noKey s.pend) := by
  simp [exec, execEnc, State.quartetCall, h]

theorem exec_dec_key (h : s.kv = true) (qd qs : Quartet) : exec (.dec qd qs) s =
    .next (s.writeQ qd (Cipher.decryptBlock s.rk (s.readQ qs))).complete := by
  simp [exec, execDec, State.quartetCall, h]

theorem exec_dec_noKey (h : s.kv = false) (qd qs : Quartet) : exec (.dec qd qs) s =
    .next (s.raiseFault .noKey s.pend) := by
  simp [exec, execDec, State.quartetCall, h]

theorem exec_keyexpm_size {wk : Reg} (h : (s.descriptor wk).len.toNat ≠ 16) : exec (.keyexpm wk) s =
    .next (s.keySizeError (s.descriptor wk).len).complete := by
  rcases execKeyexpm_cases wk s with ⟨_, h'⟩ | ⟨h', _⟩ | ⟨h', _⟩
  · exact h'
  all_goals exact absurd h' h

theorem exec_keyexpm_range {wk : Reg} (h : (s.descriptor wk).len.toNat = 16)
    (h1 : s.params.bufBytes < (s.descriptor wk).off + 16) : exec (.keyexpm wk) s =
    .next (s.raiseFault .range s.pend) := by
  rcases execKeyexpm_cases wk s with ⟨h', _⟩ | ⟨_, _, h'⟩ | ⟨_, h', _⟩
  · exact absurd h h'
  · exact h'
  · omega

theorem exec_keyexpm_ok {wk : Reg} (h : (s.descriptor wk).len.toNat = 16)
    (h1 : (s.descriptor wk).off + 16 ≤ s.params.bufBytes) : exec (.keyexpm wk) s =
    .next (s.setContext (Cipher.expandKey (s.bufBlock (s.descriptor wk).off))).complete := by
  rcases execKeyexpm_cases wk s with ⟨h', _⟩ | ⟨_, h', _⟩ | ⟨_, _, h'⟩
  · exact absurd h h'
  · omega
  · exact h'

theorem exec_encm_ok {wdst wsrc : Reg} (ok : BlockCallOk s (s.descriptor wdst) (s.descriptor wsrc)) :
    exec (.encm wdst wsrc) s =
      .next ({ s with buf :=
        s.buf.putBlock (s.descriptor wdst).off (Cipher.encryptBlock s.rk (s.bufBlock (s.descriptor wsrc).off)) } :
          State).complete :=
  ((bufferCall_cases s Cipher.encryptBlock _ _).resolve_right fun h => h.1 ok).2

theorem exec_decm_ok {wdst wsrc : Reg} (ok : BlockCallOk s (s.descriptor wdst) (s.descriptor wsrc)) :
    exec (.decm wdst wsrc) s =
      .next ({ s with buf :=
        s.buf.putBlock (s.descriptor wdst).off (Cipher.decryptBlock s.rk (s.bufBlock (s.descriptor wsrc).off)) } :
          State).complete :=
  ((bufferCall_cases s Cipher.decryptBlock _ _).resolve_right fun h => h.1 ok).2

theorem exec_encm_fault {wdst wsrc : Reg} {c : FaultCause}
    (h : s.checkBlockCall (s.descriptor wdst) (s.descriptor wsrc) = some c) :
    exec (.encm wdst wsrc) s = .next (s.raiseFault c s.pend) := by
  simp only [exec, execEncm, State.bufferCall, h]

theorem exec_decm_fault {wdst wsrc : Reg} {c : FaultCause}
    (h : s.checkBlockCall (s.descriptor wdst) (s.descriptor wsrc) = some c) :
    exec (.decm wdst wsrc) s = .next (s.raiseFault c s.pend) := by
  simp only [exec, execDecm, State.bufferCall, h]

end

/-! ## Several commands, one after another -/

@[simp] theorem execAll_nil (s : State) : execAll [] s = .next s := rfl

/-- The first command's next state is where the rest begin. -/
theorem execAll_cons {i : Instr} {is : List Instr} {s t : State} (h : exec i s = .next t) :
    execAll (i :: is) s = execAll is t := by
  simp only [execAll, h]

/-- Two lists of commands, one after the other. -/
theorem execAll_append {is js : List Instr} {s t : State} (h : execAll is s = .next t) :
    execAll (is ++ js) s = execAll js t := by
  induction is generalizing s with
  | nil => cases h; rfl
  | cons i is ih =>
    simp only [execAll, List.cons_append] at h ⊢
    cases hi : exec i s with
    | next u => rw [hi] at h; exact ih h
    | fault e => rw [hi] at h; cases h
    | refused r => rw [hi] at h; cases h

@[simp] theorem rndAll_nil (qd : Quartet) (ws : Reg) (s : State) : rndAll qd ws [] s = .next s := rfl

/-- One round of a host's loop of RNDs. -/
theorem rndAll_cons (qd : Quartet) (ws : Reg) (k : Word) (ks : List Word) (s : State) :
    rndAll qd ws (k :: ks) s =
      rndAll qd ws ks ((s.writeW ws k).writeQ qd
        (Cipher.encRound ((s.writeW ws k).readQ qd) ((s.writeW ws k).readW ws))).complete := by
  simp only [rndAll, exec_rnd]

end Sys2Proof.Machine
end

