-- ==== Sys2Proof/Laws/PerInstr.lean ====
section
/-! SUPPORT. Statements made of every command as syntax, one lemma per constructor (LAWS.json). Family LegalWord: the word
written for a command carries its opcode, that opcode is assigned, and the zero bits of its format hold
(30_encoding.md R92, R95, R98). -/

namespace Sys2Proof.Laws.LegalWord

/-- The word of a command is legal (R98). -/
def Statement (i : Instr) : Prop :=
  opField (encode i) = i.opcode ∧ ∃ f, formatOf i.opcode = some f ∧ f.zerosHold (encode i) = true

/-- A run of bits is 0 when it is 0 as a number. -/
theorem bits_beq_zero {hi lo : Nat} {c : Word} (h : c.toNat / 2 ^ lo % 2 ^ (hi - lo + 1) = 0) :
    (bits c hi lo == 0) = true := by
  rw [beq_iff_eq]
  exact BitVec.eq_of_toNat_eq (by rw [toNat_bits, h]; rfl)

theorem nop : Statement .nop := ⟨by simp [encode], .n, rfl, by decide⟩

theorem r2 (op : BitVec 8) (wd ws : Reg) :
    Format.zerosHold .r2 (fieldsWord op (regField wd) (regField ws) 0#4 0#12) = true :=
  bits_beq_zero (by
    have := op.isLt; have := wd.isLt; have := ws.isLt
    rw [fieldsWord_toNat]; simp only [regField_toNat, BitVec.toNat_ofNat]; omega)

theorem sbox (wd ws : Reg) : Statement (.sbox wd ws) := ⟨by simp [encode], .r2, rfl, r2 _ wd ws⟩
theorem tau (wd ws : Reg) : Statement (.tau wd ws) := ⟨by simp [encode], .r2, rfl, r2 _ wd ws⟩
theorem lenc (wd ws : Reg) : Statement (.lenc wd ws) := ⟨by simp [encode], .r2, rfl, r2 _ wd ws⟩
theorem lkey (wd ws : Reg) : Statement (.lkey wd ws) := ⟨by simp [encode], .r2, rfl, r2 _ wd ws⟩
theorem tenc (wd ws : Reg) : Statement (.tenc wd ws) := ⟨by simp [encode], .r2, rfl, r2 _ wd ws⟩
theorem tkey (wd ws : Reg) : Statement (.tkey wd ws) := ⟨by simp [encode], .r2, rfl, r2 _ wd ws⟩

theorem xor (wd ws1 ws2 : Reg) : Statement (.xor wd ws1 ws2) :=
  ⟨by simp [encode], .r3, rfl, bits_beq_zero (by
    have := wd.isLt; have := ws1.isLt; have := ws2.isLt
    simp only [encode, fieldsWord_toNat, regField_toNat, BitVec.toNat_ofNat]; omega)⟩

theorem rnd (qd : Quartet) (ws : Reg) : Statement (.rnd qd ws) :=
  ⟨by simp [encode], .qr, rfl, by
    have := qd.isLt; have := ws.isLt
    rw [Format.zerosHold, Bool.and_eq_true]
    constructor <;> apply bits_beq_zero <;>
      simp only [encode, fieldsWord_toNat, regField_toNat, quartetField_toNat, BitVec.toNat_ofNat] <;> omega⟩

theorem krnd (qd : Quartet) (i : RoundIndex) : Statement (.krnd qd i) :=
  ⟨by simp [encode], .qi, rfl, by
    have := qd.isLt; have := i.isLt
    rw [Format.zerosHold, Bool.and_eq_true]
    constructor <;> apply bits_beq_zero <;>
      simp only [encode, fieldsWord_toNat, indexField_toNat, quartetField_toNat, BitVec.toNat_ofNat] <;> omega⟩

theorem q (op : BitVec 8) (qd : Quartet) : Format.zerosHold .q (fieldsWord op (quartetField qd) 0#4 0#4 0#12) = true :=
  bits_beq_zero (by
    have := op.isLt; have := qd.isLt
    rw [fieldsWord_toNat]; simp only [quartetField_toNat, BitVec.toNat_ofNat]; omega)

theorem fkx (qd : Quartet) : Statement (.fkx qd) := ⟨by simp [encode], .q, rfl, q _ qd⟩
theorem rev (qd : Quartet) : Statement (.rev qd) := ⟨by simp [encode], .q, rfl, q _ qd⟩

theorem keyexp (qs : Quartet) : Statement (.keyexp qs) :=
  ⟨by simp [encode], .qs, rfl, by
    have := qs.isLt
    rw [Format.zerosHold, Bool.and_eq_true]
    constructor <;> apply bits_beq_zero <;>
      simp only [encode, fieldsWord_toNat, quartetField_toNat, BitVec.toNat_ofNat] <;> omega⟩

theorem qq (op : BitVec 8) (qd qs : Quartet) :
    Format.zerosHold .qq (fieldsWord op (quartetField qd) (quartetField qs) 0#4 0#12) = true := by
  have := op.isLt; have := qd.isLt; have := qs.isLt
  rw [Format.zerosHold, Bool.and_eq_true]
  constructor <;> apply bits_beq_zero <;>
    simp only [fieldsWord_toNat, quartetField_toNat, BitVec.toNat_ofNat] <;> omega

theorem enc (qd qs : Quartet) : Statement (.enc qd qs) := ⟨by simp [encode], .qq, rfl, qq _ qd qs⟩
theorem dec (qd qs : Quartet) : Statement (.dec qd qs) := ⟨by simp [encode], .qq, rfl, qq _ qd qs⟩

theorem keyexpm (wk : Reg) : Statement (.keyexpm wk) :=
  ⟨by simp [encode], .d1, rfl, by
    have := wk.isLt
    rw [Format.zerosHold, Bool.and_eq_true]
    constructor <;> apply bits_beq_zero <;>
      simp only [encode, fieldsWord_toNat, regField_toNat, BitVec.toNat_ofNat] <;> omega⟩

theorem d2 (op : BitVec 8) (wdst wsrc : Reg) :
    Format.zerosHold .d2 (fieldsWord op 0#4 (regField wdst) (regField wsrc) 0#12) = true := by
  have := op.isLt; have := wdst.isLt; have := wsrc.isLt
  rw [Format.zerosHold, Bool.and_eq_true]
  constructor <;> apply bits_beq_zero <;>
    simp only [fieldsWord_toNat, regField_toNat, BitVec.toNat_ofNat] <;> omega

theorem encm (wdst wsrc : Reg) : Statement (.encm wdst wsrc) := ⟨by simp [encode], .d2, rfl, d2 _ wdst wsrc⟩
theorem decm (wdst wsrc : Reg) : Statement (.decm wdst wsrc) := ⟨by simp [encode], .d2, rfl, d2 _ wdst wsrc⟩

end Sys2Proof.Laws.LegalWord
end

