-- ==== Sys2Proof/Tests/Slice0.lean ====
section
/-! SUPPORT. The model's own tests. Every expected value stands in the spec: the examples and tables of 30_encoding.md R101
and R103, and the vectors V6 to V40 of 95_test_vectors.md. The witnesses at the end meet the hypotheses of the statements. -/

namespace Sys2Proof.Tests

-- One test after another: many small tests checked at once would ask for more threads than the check's memory limit allows.
set_option Elab.async false

open Sys2Proof.Machine

/-! ## Small states -/

/-- The standard key and plaintext (95_test_vectors.md, Notation). -/
def key : Block := ⟨0x01234567, 0x89ABCDEF, 0xFEDCBA98, 0x76543210⟩

/-- The ciphertext of V1. -/
def ciphertext : Block := ⟨0x681EDF34, 0xD206965E, 0x86B3E94F, 0x536E4246⟩

/-- The reset state with some registers written. -/
def regs (ws : List (Reg × Word)) : State :=
  ws.foldl (fun s p => s.writeW p.1 p.2) State.reset

/-- The reset state with one quartet written. -/
def quartet (q : Quartet) (x : Block) : State :=
  State.reset.writeQ q x

/-- A state with the standard key's context (R156). -/
def keyed (s : State) : State :=
  s.setContext (Cipher.expandKey key)

/-- A state with a block in BUF at an offset. -/
def stored (s : State) (a : Nat) (x : Block) : State :=
  { s with buf := s.buf.putBlock a x }

/-- One step with a command word pending; none when it stops. -/
def run (w : Nat) (s : State) : Option State :=
  match step (s.withFetchWord 32 w) with
  | .next t => some t
  | _ => none

/-- One step with events of the outside world still to come; none when it stops. -/
def outside (es : List Event) (s : State) : Option State :=
  match step { s with events := es } with
  | .next t => some t
  | _ => none

/-- STATUS, FCODE's field and FINFO after a step. -/
def statusInfo (t : State) : Word × Word := (t.statusWord, t.finfo)

/-! ## Decoding: words written out from R91 to R95 -/

theorem test_decode_nop : decode 0b00000001_0000_0000_0000_000000000000 = .ok .nop := by decide
theorem test_decode_sbox : decode 0b00010000_0011_1010_0000_000000000000 = .ok (.sbox 3 10) := by decide
theorem test_decode_tau : decode 0b00010001_0011_0111_0000_000000000000 = .ok (.tau 3 7) := by decide
theorem test_decode_lenc : decode 0b00010010_1111_0000_0000_000000000000 = .ok (.lenc 15 0) := by decide
theorem test_decode_lkey : decode 0b00010011_0001_0100_0000_000000000000 = .ok (.lkey 1 4) := by decide
theorem test_decode_tenc : decode 0b00010100_0010_1111_0000_000000000000 = .ok (.tenc 2 15) := by decide
theorem test_decode_tkey : decode 0b00010101_0100_0010_0000_000000000000 = .ok (.tkey 4 2) := by decide
theorem test_decode_xor : decode 0b00010110_0001_0010_0011_000000000000 = .ok (.xor 1 2 3) := by decide
theorem test_decode_rnd : decode 0b00100000_0100_0000_1111_000000000000 = .ok (.rnd 1 15) := by decide
theorem test_decode_krnd : decode 0b00100001_1000_0000_0000_000000011111 = .ok (.krnd 2 31) := by decide
theorem test_decode_fkx : decode 0b00100010_1100_0000_0000_000000000000 = .ok (.fkx 3) := by decide
theorem test_decode_rev : decode 0b00100011_0100_0000_0000_000000000000 = .ok (.rev 1) := by decide
theorem test_decode_keyexp : decode 0b00110000_0000_1100_0000_000000000000 = .ok (.keyexp 3) := by decide
theorem test_decode_enc : decode 0b00110001_0100_1000_0000_000000000000 = .ok (.enc 1 2) := by decide
theorem test_decode_dec : decode 0b00110010_1000_0100_0000_000000000000 = .ok (.dec 2 1) := by decide
theorem test_decode_keyexpm : decode 0b01000000_0000_0101_0000_000000000000 = .ok (.keyexpm 5) := by decide
theorem test_decode_encm : decode 0b01000001_0000_0001_0010_000000000000 = .ok (.encm 1 2) := by decide
theorem test_decode_decm : decode 0b01000010_0000_0010_0001_000000000000 = .ok (.decm 2 1) := by decide

/-- The decoder refuses this word. -/
def refusedWord (w : Word) : Bool :=
  (decode w).toOption.isNone

/-- V30's illegal words. -/
theorem test_v30_unassigned :
    [0x00000000, 0xFFFFFFFF, 0x02000000, 0x17000000, 0x33000000, 0x43000000].all refusedWord = true := by decide

theorem test_v30_registers :
    [0x01000001, 0x01800000, 0x10001000, 0x10000001, 0x16000001, 0x40150000, 0x40051000, 0x41110000, 0x41010001].all
      refusedWord = true := by decide

theorem test_v30_quartets :
    [0x31100000, 0x31010000, 0x31400001, 0x21000020, 0x21001000, 0x20010000, 0x2000F001, 0x22100000, 0x23200000].all
      refusedWord = true := by decide

theorem test_v30_more_quartets : [0x22010000, 0x30010000, 0x30100000].all refusedWord = true := by decide

theorem test_v30_legal :
    decode 0x2100001F = .ok (.krnd 0 31) ∧ decode 0x30040000 = .ok (.keyexp 1) ∧ decode 0x42000000 = .ok (.decm 0 0) := by
  decide

/-- The host's way to ask: the row's bits as a number. -/
theorem test_decodeTableWord :
    decodeTableWord 32 0x16123000 = some (.xor 1 2 3) ∧ decodeTableWord 32 0x21000020 = none := by decide

/-- Encoding gives the words of R155, R173, R176, R196 and R197. -/
theorem test_encode :
    encode (.krnd 0 1) = 0x21000001 ∧ encode (.rnd 0 4) = 0x20004000 ∧ encode (.dec 0 1) = 0x32040000 ∧
      encode (.encm 1 0) = 0x41010000 ∧ encode (.decm 2 1) = 0x42021000 := by decide

/-! ## Well-formed lines, and one ill-formed line for each check (R92, R94, R101) -/

theorem test_wf_example : (⟨.rnd, [.q 3, .w 15]⟩ : AsmLine).wellFormed = true := by decide
theorem test_wf_register_range : (⟨.tau, [.w 16, .w 0]⟩ : AsmLine).wellFormed = false := by decide
theorem test_wf_quartet_range : (⟨.rev, [.q 4]⟩ : AsmLine).wellFormed = false := by decide
theorem test_wf_index_range : (⟨.krnd, [.q 0, .imm 32]⟩ : AsmLine).wellFormed = false := by decide
theorem test_wf_operand_kind : (⟨.enc, [.w 0, .w 1]⟩ : AsmLine).wellFormed = false := by decide
theorem test_wf_too_few : (⟨.xor, [.w 0, .w 1]⟩ : AsmLine).wellFormed = false := by decide
theorem test_wf_too_many : (⟨.nop, [.w 0]⟩ : AsmLine).wellFormed = false := by decide

/-- The assembler refuses what is ill formed, and takes CLR (R102). -/
theorem test_assemble :
    assemble ⟨.krnd, [.q 0, .imm 32]⟩ = none ∧ assemble ⟨.enc, [.w 0, .w 1]⟩ = none ∧
      assemble ⟨.clr, [.w 1]⟩ = some (.xor 1 1 1) ∧ assemble ⟨.encm, [.w 7]⟩ = some (.encm 7 7) := by decide

/-- A line's characters (R101): letters in either case, hexadecimal immediates. -/
theorem test_readLine :
    readLine ['k', 'R', 'n', 'd', ' ', 'q', '2', ',', ' ', '0', 'x', '1', 'F'] = some ⟨.krnd, [.q 2, .imm 31]⟩ ∧
      readLine ['N', 'O', 'P'] = some ⟨.nop, []⟩ ∧ readLine ['R', 'E', 'V', ' ', 'x', '1'] = none := by decide

/-! ## The cipher's functions -/

/-- V6. -/
theorem test_v6 :
    [0x00, 0x01, 0x10, 0x7F, 0x80, 0xEF, 0xFE, 0xFF].map (fun n => Cipher.S (BitVec.ofNat 8 n)) =
      [0xD6, 0x90, 0x2B, 0x9E, 0xEA, 0x84, 0x39, 0x48] := by decide

/-- V7, row DEADBEEF. -/
theorem test_v7 :
    Cipher.tau 0xDEADBEEF = 0xB4535B84 ∧ Cipher.L 0xDEADBEEF = 0x06812D22 ∧ Cipher.Lk 0xDEADBEEF = 0x1E9F13E5 ∧
      Cipher.T 0xDEADBEEF = 0xC2D6A551 ∧ Cipher.Tk 0xDEADBEEF = 0x1D79E4A3 := by decide

/-- V3, its first and last subkeys. -/
theorem test_v3 :
    (Cipher.expandKey key)[0] = 0xF12186F9 ∧ (Cipher.expandKey key)[15] = 0x104495A1 ∧
      (Cipher.expandKey key)[31] = 0x9124A012 := by decide +kernel

/-- V1, the source's known-answer vector. -/
theorem test_v1 : Cipher.encryptBlock (Cipher.expandKey key) key = ciphertext := by decide +kernel

/-- V11, the key of all ones. -/
theorem test_v11 :
    Cipher.encryptBlock (Cipher.expandKey ⟨0xFFFFFFFF, 0xFFFFFFFF, 0xFFFFFFFF, 0xFFFFFFFF⟩)
      ⟨0xFFFFFFFF, 0xFFFFFFFF, 0xFFFFFFFF, 0xFFFFFFFF⟩ = ⟨0xEDB119F8, 0x455FD232, 0x7AD6FBED, 0xCB5B4F5D⟩ := by
  decide +kernel

/-! ## One step per command -/

/-- V8. -/
theorem test_sbox : (run 0x10330000 (regs [(3, 0xABCDEF00)])).map (·.readW 3) = some 0x000000D6 := by decide +kernel
theorem test_tau : (run 0x11370000 (regs [(7, 0x01234567)])).map (·.readW 3) = some 0x90F473A2 := by decide +kernel
theorem test_lenc : (run 0x12100000 (regs [(0, 1)])).map (·.readW 1) = some 0x01040405 := by decide +kernel
theorem test_lkey : (run 0x13100000 (regs [(0, 1)])).map (·.readW 1) = some 0x00802001 := by decide +kernel
theorem test_tenc : (run 0x14220000 (regs [(2, 0x01234567)])).map (·.readW 2) = some 0x6EF180C9 := by decide +kernel
theorem test_tkey : (run 0x15420000 (regs [(2, 0x01234567)])).map (·.readW 4) = some 0xCFC85B85 := by decide +kernel
theorem test_xor :
    (run 0x16123000 (regs [(2, 0x89ABCDEF), (3, 0xFEDCBA98)])).map (·.readW 1) = some 0x77777777 := by decide +kernel
theorem test_clr : (run 0x16111000 (regs [(1, 0x12345678)])).map (·.readW 1) = some 0 := by decide +kernel

/-- V10. -/
theorem test_fkx :
    (run 0x22000000 (quartet 0 key)).map (·.readQ 0) = some ⟨0xA292FFA1, 0xDF01FEBF, 0x99A12B0F, 0xC42410CC⟩ := by
  decide +kernel
theorem test_krnd :
    (run 0x21000001 (quartet 0 ⟨0xDF01FEBF, 0x99A12B0F, 0xC42410CC, 0xF12186F9⟩)).map (·.readQ 0) =
      some ⟨0x99A12B0F, 0xC42410CC, 0xF12186F9, 0x41662B61⟩ := by decide +kernel
theorem test_krnd_illegal :
    (run 0x21000020 (quartet 0 key)).map (fun t => (statusInfo t, t.readQ 0)) = some ((0x18, 0x21000020), key) := by
  decide +kernel
theorem test_keyexp :
    (run 0x300C0000 State.reset).map (fun t => (t.readRK 0, t.readRK 31, t.statusWord)) =
      some (0x45603B23, 0xA16CA108, 0x02) := by decide +kernel

/-- V12; the second RND takes its subkey from inside the quartet. -/
theorem test_rnd :
    (run 0x20004000 ((quartet 0 key).writeW 4 0xF12186F9)).map (·.readQ 0) =
      some ⟨0x89ABCDEF, 0xFEDCBA98, 0x76543210, 0x27FAD345⟩ := by decide +kernel
theorem test_rnd_inside :
    (run 0x20002000 (quartet 0 key)).map (·.readQ 0) = some ⟨0x89ABCDEF, 0xFEDCBA98, 0x76543210, 0x20026446⟩ := by
  decide +kernel
theorem test_rev :
    (run 0x23400000 (quartet 1 ⟨0x536E4246, 0x86B3E94F, 0xD206965E, 0x681EDF34⟩)).map (·.readQ 1) = some ciphertext := by
  decide +kernel
theorem test_enc :
    (run 0x31400000 (keyed (quartet 0 key))).map (fun t => (t.readQ 1, t.readQ 0)) = some (ciphertext, key) := by
  decide +kernel
theorem test_enc_noKey :
    (run 0x31400000 (quartet 0 key)).map (fun t => (statusInfo t, t.readQ 1)) =
      some ((0x28, 0x31400000), ⟨0, 0, 0, 0⟩) := by decide +kernel
theorem test_dec : (run 0x32040000 (keyed (quartet 1 ciphertext))).map (·.readQ 0) = some key := by decide +kernel
theorem test_dec_noKey : (run 0x32040000 State.reset).map statusInfo = some (0x28, 0x32040000) := by decide +kernel

/-- V20: a bad length with a bad offset is a key-size error; the last offset that fits. -/
theorem test_keyexpm_size :
    (run 0x40030000 (regs [(3, 0x000FFFFF)])).map (fun t => (t.statusWord, t.errlen, t.readRK 0)) =
      some (0x04, 0x000F, 0) := by decide +kernel
theorem test_keyexpm :
    (run 0x40030000 (stored (regs [(3, 0x00100FF0)]) 0xFF0 key)).map (fun t => (t.statusWord, t.readRK 0)) =
      some (0x02, 0xF12186F9) := by decide +kernel

/-- V23: 32 bytes declared, 16 written. -/
theorem test_encm :
    (run 0x41012000 (keyed (stored (stored (regs [(1, 0x00200020), (2, 0x00100000)]) 0 key) 48 key))).map
      (fun t => (t.bufBlock 32, t.bufBlock 48, t.statusWord)) = some (ciphertext, key, 0x02) := by decide +kernel

/-- V22: range first, although the blocks also overlap. -/
theorem test_encm_range :
    (run 0x41012000 (keyed (regs [(1, 0x00100FF9), (2, 0x00100FF8)]))).map statusInfo = some (0x4A, 0x41012000) := by
  decide +kernel
theorem test_decm :
    (run 0x42021000 (keyed (stored (regs [(1, 0x00100010), (2, 0x00100020)]) 16 ciphertext))).map (·.bufBlock 32) =
      some key := by decide +kernel
theorem test_decm_overlap :
    (run 0x42012000 (keyed (regs [(1, 0x00100000), (2, 0x0010000F)]))).map statusInfo = some (0x5A, 0x42012000) := by
  decide +kernel

/-- V25: a NOP changes nothing but BUSY, which withFetchWord had set, and PEND holds its word. -/
theorem test_nop : run 0x01000000 (quartet 0 key) = some { quartet 0 key with pend := 0x01000000 } := by decide +kernel

/-! ## The port (V40) -/

theorem test_read_id : (outside [rd 0x0000] State.reset).map (·.replies) = some [⟨0x0000, 0x534D3401⟩] := by decide +kernel
theorem test_read_bufsz : (outside [rd 0x0018] State.reset).map (·.replies) = some [⟨0x0018, 4096⟩] := by decide +kernel
theorem test_read_w :
    (outside [rd 0x007C] (regs [(15, 0x55)])).map (·.replies) = some [⟨0x007C, 0x55⟩] := by decide +kernel
theorem test_read_buf :
    (outside [rd 0x1FFC] (stored State.reset 0xFF0 key)).map (·.replies) = some [⟨0x1FFC, 0x76543210⟩] := by decide +kernel
theorem test_write_cmd :
    (outside [cmd (.enc 1 0)] State.reset).map (fun t => (t.pend, t.busy)) = some (0x31400000, true) := by decide +kernel
theorem test_write_ignored :
    (outside [wr 0x0080 5] (keyed State.reset)).map (fun t => (t.readRK 0, t.statusWord)) = some (0xF12186F9, 0x02) := by
  decide +kernel

/-- A write before the pending command's step is a BUSYWR fault; the command has no effect (P6). -/
theorem test_busy_write :
    (outside [⟨.write 0x0040 0, true⟩] { keyed (quartet 0 key) with busy := true, pend := 0x31400000 }).map
      (fun t => (statusInfo t, t.readQ 0, t.readQ 1)) = some ((0x6A, 0x00000040), key, ⟨0, 0, 0, 0⟩) := by decide +kernel

/-- CTRL.SRST is the way out of a fault, and BUF stays. -/
theorem test_reset :
    (outside [wr 0x0008 1] ((stored (keyed (regs [(1, 5)])) 0 key).raiseFault .noKey 7)).map
      (fun t => (statusInfo t, t.readW 1, t.readRK 0, t.bufBlock 0)) = some ((0, 0), 0, 0, key) := by decide +kernel

/-! ## Witnesses: states and operands that meet the hypotheses of each statement, clause by clause -/

/-- A command word is pending and nothing is to come before it. -/
def pending (w : Word) (s : State) : State :=
  { s with busy := true, pend := w, events := [] }

theorem pending_turn (w : Word) (s : State) : EnginesTurn (pending w s) :=
  ⟨rfl, fun _ _ h => by cases h⟩

/-- A word that the decoder refuses is illegal. -/
theorem illegal_of_error {c : Word} {e : Illegal} (h : decode c = .error e) : IllegalWord c :=
  fun i hi => by rw [h] at hi; cases hi

theorem witness_EncodeOfDecode : ∃ c i, decode c = .ok i := ⟨0x16123000, .xor 1 2 3, by decide⟩

theorem witness_DecoderFollowsOpcodeTable : (∃ c i, decode c = .ok i) ∧ ∃ c, IllegalWord c :=
  ⟨witness_EncodeOfDecode, 0x16123001, illegal_of_error (e := .reservedBits 0x16) (by decide)⟩

theorem witness_IllegalWordsFault : ∃ s : State, EnginesTurn s ∧ IllegalWord s.pend :=
  ⟨pending 0x00000000 State.reset, pending_turn _ _, illegal_of_error (e := .unassignedOpcode 0x00) (by decide)⟩

theorem witness_StepRunsPendingCommand : ∃ (s : State) (i : Instr), EnginesTurn s ∧ decode s.pend = .ok i :=
  ⟨pending 0x30000000 State.reset, .keyexp 0, pending_turn _ _, by decide⟩

/-- A read is to come before the pending command's step. -/
def hostFirst : State :=
  { pending 0x01000000 State.reset with events := [⟨.read 0x0004, true⟩] }

theorem hostFirst_turn : ¬EnginesTurn hostFirst := by
  rw [← engineNext_iff]; decide

theorem idle_turn {s : State} (h : s.busy = false) : ¬EnginesTurn s :=
  fun t => by have := t.busy; rw [h] at this; cases this

theorem witness_OutsideEventsHappenInOrder :
    (∃ (s : State) (e : Event) (rest : List Event), ¬EnginesTurn s ∧ s.events = e :: rest) ∧
    ∃ s : State, ¬EnginesTurn s ∧ s.events = [] :=
  ⟨⟨hostFirst, _, _, hostFirst_turn, rfl⟩, State.reset, idle_turn rfl, rfl⟩

theorem witness_StepNeverStops :
    hostFirst.events ≠ [] ∧ ∀ e rest, hostFirst.events = e :: rest → e.action.expressible = true :=
  ⟨by decide, fun _ _ h => by cases h; rfl⟩

theorem witness_MisalignedTransactionRefused :
    (∃ (s : State) (e : Event) (rest : List Event) (off : BitVec 16), ¬EnginesTurn s ∧ s.events = e :: rest ∧
      e.action = .read off ∧ off.toNat % 4 ≠ 0) ∧
    ∃ (s : State) (e : Event) (rest : List Event) (off : BitVec 16) (v : Word), ¬EnginesTurn s ∧ s.events = e :: rest ∧
      e.action = .write off v ∧ off.toNat % 4 ≠ 0 :=
  ⟨⟨{ State.reset with events := [rd 0x0006] }, rd 0x0006, [], 0x0006, idle_turn rfl, rfl, rfl, by decide⟩,
    { State.reset with events := [wr 0xFFFF 1] }, wr 0xFFFF 1, [], 0xFFFF, 1, idle_turn rfl, rfl, rfl, by decide⟩

theorem witness_PendingCommandEnds :
    hostFirst.busy = true ∧ ∀ e ∈ hostFirst.events, e.action.expressible = true := by decide

/-- The illegal words of the commands' statements: each command's opcode with its lowest zero bit or its highest set. -/
theorem witness_illegal_clauses :
    (opField 0x01000001 = 0x01 ∧ bits 0x01000001 23 0 ≠ 0) ∧ (opField 0x10008000 = 0x10 ∧ bits 0x10008000 15 0 ≠ 0) ∧
    (opField 0x11000001 = 0x11 ∧ bits 0x11000001 15 0 ≠ 0) ∧ (opField 0x12008000 = 0x12 ∧ bits 0x12008000 15 0 ≠ 0) ∧
    (opField 0x13000001 = 0x13 ∧ bits 0x13000001 15 0 ≠ 0) ∧ (opField 0x14008000 = 0x14 ∧ bits 0x14008000 15 0 ≠ 0) ∧
    (opField 0x15000001 = 0x15 ∧ bits 0x15000001 15 0 ≠ 0) ∧ (opField 0x16000800 = 0x16 ∧ bits 0x16000800 11 0 ≠ 0) := by
  decide

theorem witness_illegal_clauses_quartets :
    (opField 0x20100000 = 0x20 ∧ bits 0x20100000 21 20 ≠ 0) ∧ (opField 0x20010000 = 0x20 ∧ bits 0x20010000 19 16 ≠ 0) ∧
    (opField 0x20000001 = 0x20 ∧ bits 0x20000001 11 0 ≠ 0) ∧ (opField 0x21200000 = 0x21 ∧ bits 0x21200000 21 20 ≠ 0) ∧
    (opField 0x21001000 = 0x21 ∧ bits 0x21001000 19 12 ≠ 0) ∧ (opField 0x21000020 = 0x21 ∧ bits 0x21000020 11 5 ≠ 0) ∧
    (opField 0x22100000 = 0x22 ∧ bits 0x22100000 21 20 ≠ 0) ∧ (opField 0x22080000 = 0x22 ∧ bits 0x22080000 19 0 ≠ 0) ∧
    (opField 0x23200000 = 0x23 ∧ bits 0x23200000 21 20 ≠ 0) ∧ (opField 0x23000001 = 0x23 ∧ bits 0x23000001 19 0 ≠ 0) := by
  decide

theorem witness_illegal_clauses_blocks :
    (opField 0x30100000 = 0x30 ∧ bits 0x30100000 23 20 ≠ 0) ∧ (opField 0x30010000 = 0x30 ∧ bits 0x30010000 17 16 ≠ 0) ∧
    (opField 0x30000001 = 0x30 ∧ bits 0x30000001 15 0 ≠ 0) ∧ (opField 0x31100000 = 0x31 ∧ bits 0x31100000 21 20 ≠ 0) ∧
    (opField 0x31010000 = 0x31 ∧ bits 0x31010000 17 16 ≠ 0) ∧ (opField 0x31400001 = 0x31 ∧ bits 0x31400001 15 0 ≠ 0) ∧
    (opField 0x32200000 = 0x32 ∧ bits 0x32200000 21 20 ≠ 0) ∧ (opField 0x32020000 = 0x32 ∧ bits 0x32020000 17 16 ≠ 0) ∧
    (opField 0x32008000 = 0x32 ∧ bits 0x32008000 15 0 ≠ 0) ∧ (opField 0x40150000 = 0x40 ∧ bits 0x40150000 23 20 ≠ 0) ∧
    (opField 0x40051000 = 0x40 ∧ bits 0x40051000 15 0 ≠ 0) ∧ (opField 0x41110000 = 0x41 ∧ bits 0x41110000 23 20 ≠ 0) ∧
    (opField 0x41010001 = 0x41 ∧ bits 0x41010001 11 0 ≠ 0) ∧ (opField 0x42800000 = 0x42 ∧ bits 0x42800000 23 20 ≠ 0) ∧
    (opField 0x42000800 = 0x42 ∧ bits 0x42000800 11 0 ≠ 0) := by
  decide

theorem witness_FkxCommand : State.reset.readQ 3 = ⟨0, 0, 0, 0⟩ := by decide

theorem witness_EncCommand : (keyed State.reset).kv = true ∧ State.reset.kv = false := by decide

theorem witness_DecCommand :
    ∃ (s : State) (x : Block), s.kv = true ∧ s.readQ 1 = Cipher.encryptBlock s.rk x ∧ State.reset.kv = false :=
  ⟨keyed (quartet 1 ciphertext), key, rfl, by decide +kernel, rfl⟩

theorem witness_RoundsThenRevAreEncAndDec : (4 : Reg).val / 4 ≠ (0 : Quartet).val ∧ (15 : Reg).val / 4 ≠ (2 : Quartet).val := by
  decide

/-- KEYEXPM's three cases, the lengths and offsets at their bounds (V20); a quartet with the same words. -/
theorem witness_KeyexpmCommand :
    bits ((regs [(3, 0x000F0000)]).readW 3) 31 16 ≠ 16 ∧ bits ((regs [(3, 0x00110000)]).readW 3) 31 16 ≠ 16 ∧
    (bits ((regs [(3, 0x00100FF1)]).readW 3) 31 16 = 16 ∧
      (bits ((regs [(3, 0x00100FF1)]).readW 3) 15 0).toNat + 16 > State.reset.params.bufBytes) ∧
    ∃ s : State, bits (s.readW 3) 31 16 = 16 ∧ (bits (s.readW 3) 15 0).toNat + 16 ≤ s.params.bufBytes ∧
      s.readQ 1 = s.bufBlock (bits (s.readW 3) 15 0).toNat :=
  ⟨by decide, by decide, by decide, stored ((regs [(3, 0x00100FF0)]).writeQ 1 key) 0xFF0 key, by decide +kernel⟩

/-- Descriptors for which every check holds (V22's last rows): 16 apart, in place, regions that overlap past their first
16 bytes, and the last 16 bytes of BUF. -/
def callState (dst src : Word) : State :=
  keyed (regs [(1, dst), (2, src)])

theorem callOk (dst src : Word) (h : (callState dst src).checkBlockCall (descriptorOf dst) (descriptorOf src) = none) :
    BlockCallOk (callState dst src) (descriptorOf dst) (descriptorOf src) :=
  (checkBlockCall_none_iff _ _ _).1 h

theorem witness_EncmCommand :
    (∃ (s : State) (d r : Reg), BlockCallOk s (s.descriptor d) (s.descriptor r)) ∧
    (∃ (s : State) (d r : Reg), ¬BlockCallOk s (s.descriptor d) (s.descriptor r)) :=
  ⟨⟨callState 0x00200010 0x00200000, 1, 2, (checkBlockCall_none_iff _ _ _).1 (by decide +kernel)⟩,
    State.reset, 1, 2, fun h => by have := h.key; cases this⟩

theorem witness_EncmCommand_bounds :
    BlockCallOk (callState 0x00100000 0x00100FF0) (descriptorOf 0x00100000) (descriptorOf 0x00100FF0) ∧
    BlockCallOk (callState 0x00100000 0x00100000) (descriptorOf 0x00100000) (descriptorOf 0x00100000) ∧
    BlockCallOk (callState 0x00100010 0x00100000) (descriptorOf 0x00100010) (descriptorOf 0x00100000) :=
  ⟨callOk _ _ (by decide +kernel), callOk _ _ (by decide +kernel), callOk _ _ (by decide +kernel)⟩

theorem witness_DecmCommand :
    ∃ (s : State) (x : Block), BlockCallOk s (s.descriptor 2) (s.descriptor 1) ∧
      s.bufBlock (s.descriptor 1).off = Cipher.encryptBlock s.rk x :=
  ⟨stored (callState 0x00100010 0x00100020) 16 ciphertext, key, (checkBlockCall_none_iff _ _ _).1 (by decide +kernel),
    by decide +kernel⟩

/-- Each clause of R198 at its bounds: source 15, destination 15, source one byte too far, destination one byte too far,
1 and 15 bytes apart. -/
theorem witness_BufferChecksInOrder :
    State.reset.kv = false ∧ (keyed State.reset).kv = true ∧ (descriptorOf 0x000F0000).len.toNat = 15 ∧
    (descriptorOf 0x00100FF1).len.toNat = 16 ∧
    State.reset.params.bufBytes < (descriptorOf 0x00100FF1).off + (descriptorOf 0x00100FF1).len.toNat ∧
    (descriptorOf 0x00100FF0).off + (descriptorOf 0x00100FF0).len.toNat ≤ State.reset.params.bufBytes ∧
    ((descriptorOf 0x00100001).off ≠ (descriptorOf 0x00100000).off ∧
      (descriptorOf 0x00100001).off < (descriptorOf 0x00100000).off + 16) ∧
    ((descriptorOf 0x0010000F).off ≠ (descriptorOf 0x00100000).off ∧
      (descriptorOf 0x0010000F).off < (descriptorOf 0x00100000).off + 16) := by
  decide +kernel

theorem witness_DecmAfterEncmRestoresBytes :
    ∃ (s : State) (wdst wsrc wback : Reg), BlockCallOk s (s.descriptor wdst) (s.descriptor wsrc) ∧
      BlockCallOk s (s.descriptor wback) (s.descriptor wdst) :=
  ⟨callState 0x00100010 0x00100000, 1, 2, 2, (checkBlockCall_none_iff _ _ _).1 (by decide +kernel),
    (checkBlockCall_none_iff _ _ _).1 (by decide +kernel)⟩

theorem witness_BlockCommandsAreReferentiallyTransparent :
    ∃ s₁ s₂ : State, s₁ ≠ s₂ ∧ s₁.rk = s₂.rk ∧ s₁.kv = true ∧ s₂.kv = true ∧ s₁.readQ 3 = s₂.readQ 2 ∧
      BlockCallOk s₁ (s₁.descriptor 1) (s₁.descriptor 2) ∧ BlockCallOk s₂ (s₂.descriptor 1) (s₂.descriptor 2) ∧
      s₁.bufBlock (s₁.descriptor 2).off = s₂.bufBlock (s₂.descriptor 2).off :=
  ⟨stored (callState 0x00100010 0x00100000) 0 key, stored (callState 0x00100000 0x00100020) 32 key,
    by decide +kernel, rfl, rfl, rfl, by decide +kernel, (checkBlockCall_none_iff _ _ _).1 (by decide +kernel),
    (checkBlockCall_none_iff _ _ _).1 (by decide +kernel), by decide +kernel⟩

theorem witness_ContextChangesOnlyBySetupOrReset :
    ∃ s t : State, step s = .next t ∧ t.kv ≠ s.kv :=
  ⟨pending 0x30000000 State.reset, _, rfl, by decide +kernel⟩

theorem witness_CommandsWriteOnlyDestinationBytes :
    (∃ (i : Instr) (s t : State), exec i s = .next t ∧ ∀ d r, i ≠ .encm d r ∧ i ≠ .decm d r) ∧
    ∃ (d r : Reg) (s t : State) (a : Nat), exec (.encm d r) s = .next t ∧
      ¬((s.descriptor d).off ≤ a ∧ a < (s.descriptor d).off + 16) :=
  ⟨⟨.nop, State.reset, _, rfl, fun _ _ => ⟨nofun, nofun⟩⟩,
    1, 2, callState 0x00100010 0x00100000, _, 32,
    exec_encm_ok ((checkBlockCall_none_iff _ _ _).1 (by decide +kernel)), by decide +kernel⟩

theorem witness_FaultingCommandWritesNothingElse :
    ∃ s t : State, EnginesTurn s ∧ s.fault = false ∧ step s = .next t ∧ t.fault = true :=
  ⟨pending 0x31000000 State.reset, _, pending_turn _ _, rfl, rfl, rfl⟩

theorem witness_CommandsWriteTheirFlagsOnly :
    (∃ (i : Instr) (s t : State), exec i s = .next t ∧ (∀ q, i ≠ .keyexp q) ∧ ∀ r, i ≠ .keyexpm r) ∧
    ∃ (i : Instr) (s t : State), exec i s = .next t ∧ t.errlen ≠ s.errlen :=
  ⟨⟨.nop, State.reset, _, rfl, fun _ => nofun, fun _ => nofun⟩,
    .keyexpm 3, regs [(3, 0x00180000)], _, exec_keyexpm_size (by decide +kernel), by decide +kernel⟩

theorem witness_FaultHoldsUntilReset :
    ∃ s t : State, s.fault = true ∧ s.busy = false ∧ step s = .next t ∧ s.events ≠ [] ∧
      ∀ e rest, s.events = e :: rest → e.action ≠ .reset ∧ ∀ v, e.action = .write 0x0008 v → v.getLsbD 0 = false :=
  ⟨{ State.reset.raiseFault .noKey 0 with events := [wr 0x0044 0x55] }, _, rfl, rfl, rfl, by decide, fun e rest h => by
    cases h
    exact ⟨nofun, fun v hv => by cases hv⟩⟩

/-- Offsets at the bounds of every clause of a read. -/
theorem witness_HostReadReturns :
    (0x0040 : BitVec 16).toNat = 0x0040 + 4 * (0 : Reg).val ∧ (0x007C : BitVec 16).toNat = 0x0040 + 4 * (15 : Reg).val ∧
    (0x0080 : BitVec 16).toNat = 0x0080 + 4 * (0 : RoundIndex).val ∧
    (0x00FC : BitVec 16).toNat = 0x0080 + 4 * (31 : RoundIndex).val ∧
    ((0x1FFC : BitVec 16).toNat = 0x1000 + 4092 ∧ 4092 < State.reset.params.bufBytes) ∧
    ((0x100C : BitVec 16).toNat = 0x1000 + 12 ∧ 12 < (State.resetWith ⟨0⟩).params.bufBytes) ∧
    0x1000 + (State.resetWith ⟨0⟩).params.bufBytes ≤ (0x1010 : BitVec 16).toNat ∧
    0x1000 + State.reset.params.bufBytes ≤ (0x2000 : BitVec 16).toNat ∧
    (pending 0 State.reset).busy = true ∧ State.reset.busy = false := by
  decide

/-- The windows of the port do not meet, whatever BUF_BYTES is. -/
theorem windows_apart (p : Params) (o : Nat) :
    ¬(inWWindow o ∧ inRKWindow o) ∧ ¬(inRKWindow o ∧ inBufWindow p o) ∧ ¬(inWWindow o ∧ inBufWindow p o) ∧
    ¬(inBufWindow p o ∧ 0x1000 + p.bufBytes ≤ o) := by
  have := bufBytes_legal p
  unfold inWWindow inRKWindow inBufWindow
  omega

theorem witness_HostWriteDoes :
    (1 : Word).getLsbD 0 = true ∧ (0xFFFFFFFE : Word).getLsbD 0 = false ∧ (0x0000 : BitVec 16) ≠ 0x0008 ∧
    (State.reset.raiseFault .noKey 0).fault = true ∧
    ((pending 0 State.reset).fault = false ∧ (pending 0 State.reset).busy = true) ∧
    (State.reset.fault = false ∧ State.reset.busy = false) ∧ (0x007C : BitVec 16).toNat = 0x0040 + 4 * (15 : Reg).val ∧
    ((0x1FFC : BitVec 16).toNat = 0x1000 + 4092 ∧ 4092 < State.reset.params.bufBytes) ∧
    (0x0004 : BitVec 16).toNat < 0x0008 ∧ (0x0010 : BitVec 16).toNat = 0x0010 ∧ (0x0FFC : BitVec 16).toNat ≤ 0x0FFC := by
  decide

theorem witness_BufWordsAreBigEndian :
    4092 % 4 = 0 ∧ 4092 < State.reset.params.bufBytes ∧ State.reset.fault = false ∧ State.reset.busy = false := by
  decide

theorem reset_inv : State.reset.Inv where
  notBusyAndFaulted := by decide
  quietWithoutFault := fun _ => ⟨rfl, rfl⟩
  codeOfFault := nofun
  contextIsSchedule := nofun
  emptyContext := fun _ => resetWith_readRK _
  failedLength := nofun
  bufCanonical := .nil
  bufInside := nofun

theorem witness_StepKeepsInvariant : ∃ s t : State, s.Inv ∧ step s = .next t ∧ t ≠ s :=
  ⟨{ State.reset with events := [wr 0x0040 5] },  _,
    ⟨reset_inv.1, reset_inv.2, reset_inv.3, reset_inv.4, reset_inv.5, reset_inv.6, reset_inv.7, reset_inv.8⟩, rfl,
    by decide +kernel⟩

theorem witness_ParameterNeverChanges : ∃ s t : State, step s = .next t :=
  ⟨pending 0x30000000 State.reset, _, rfl⟩

end Sys2Proof.Tests
end

section
/-! PROOFS. The parameter BUF_BYTES (00_scope.md R7): the engine's step, an action of the outside world, and so every
step, leave it as it was. -/

namespace Sys2Proof.Machine

/-- 10_state.md R43: no command changes the parameter. -/
theorem exec_keeps_params {i : Instr} {s t : State} (h : exec i s = .next t) : t.params = s.params := by
  rcases exec_cases i s with ⟨w, he⟩ | ⟨-, mk, he⟩ | ⟨r, -, -, he⟩ | ⟨d, r, x, -, -, he⟩ | ⟨c, -, -, he⟩ <;>
    cases he.symm.trans h <;> rfl

/-- 30_encoding.md R96, R98: neither the pending command nor the fault of an illegal word changes the parameter. -/
theorem engineStep_keeps_params {s t : State} (h : engineStep s = .next t) : t.params = s.params := by
  unfold engineStep at h
  split at h
  · cases h
    exact raiseFault_params ..
  · exact exec_keeps_params h

/-- 20_memory.md R63: no HostWrite changes the parameter. -/
theorem hostWrite_keeps_params {s t : State} {off : BitVec 16} {v : Word} (h4 : off.toNat % 4 = 0)
    (h : s.hostWrite off v = .ok t) : t.params = s.params := by
  rcases hostWrite_cases s v h4 with
      ⟨-, -, he⟩ | he | ⟨-, -, he⟩ | ⟨-, -, he⟩ | ⟨-, -, r, he⟩ | ⟨-, -, a, -, he⟩ <;>
    cases he.symm.trans h <;> rfl

/-- 20_memory.md R62, R63, 70_reset_and_hazards.md R241: no action of the outside world changes the parameter. -/
theorem takeAction_keeps_params {a : Action} {s t : State} (h : takeAction a s = .next t) :
    t.params = s.params := by
  cases ha : a.expressible with
  | false =>
    obtain ⟨off, he⟩ := takeAction_inexpressible a s ha
    cases he.symm.trans h
  | true =>
    rcases takeAction_cases a s ha with ⟨-, he⟩ | ⟨off, v, -, he⟩ | ⟨off, v, u, -, h4, hw, he⟩
    · cases he.symm.trans h
      exact resetEngine_params s
    · cases he.symm.trans h
      exact replied_params s off v
    · cases he.symm.trans h
      exact hostWrite_keeps_params h4 hw

/-- Settles O57, by the three kinds of step: the engine's, the outside world's next action, and waiting. -/
theorem parameterNeverChanges : Obligations.ParameterNeverChanges := by
  intro s t h
  rcases step_cases s with ⟨-, he⟩ | ⟨-, e, rest, -, he⟩ | ⟨-, -, -, he⟩
  · exact engineStep_keeps_params (he.symm.trans h)
  · have hp := takeAction_keeps_params (he.symm.trans h)
    exact hp
  · cases he.symm.trans h
    rfl

end Sys2Proof.Machine
end

section
/-! PROOFS. What commands and steps may write of the context and the STATUS flags (10_state.md R23 to R29, R50), the fields
of STATUS (R38), and the state right after reset (R49). -/

namespace Sys2Proof.Machine

/-! ## STATUS -/

/-- 10_state.md R38: the four low bits of STATUS are the flags. -/
theorem getLsbD_statusWord_flags (s : State) :
    s.statusWord.getLsbD 0 = s.busy ∧ s.statusWord.getLsbD 1 = s.kv ∧ s.statusWord.getLsbD 2 = s.kerr ∧
    s.statusWord.getLsbD 3 = s.fault := by
  simp only [State.statusWord, BitVec.getLsbD_setWidth, BitVec.getLsbD_append]
  simp

/-- 10_state.md R38: from bit 4 on STATUS is FCODE, and so 0 above FCODE's own four bits. -/
theorem getLsbD_statusWord_four_add (s : State) (k : Nat) :
    s.statusWord.getLsbD (4 + k) = s.fcode.getLsbD k := by
  have hlt : s.fcode.getLsbD k = true → 4 + k < 32 := fun h => by
    have := BitVec.lt_of_getLsbD h
    omega
  simp only [State.statusWord, BitVec.getLsbD_setWidth, BitVec.getLsbD_append, Nat.add_comm 4 k]
  simpa [Nat.add_comm 4 k] using hlt

/-- Settles O49: the flags are `getLsbD_statusWord_flags`; FCODE and the zero bits follow bit by bit from
`getLsbD_statusWord_four_add`. -/
theorem statusFields : Obligations.StatusFields := by
  intro s
  obtain ⟨hbusy, hkv, hkerr, hfault⟩ := getLsbD_statusWord_flags s
  refine ⟨hbusy, hkv, hkerr, hfault, ?_, ?_⟩
  · refine BitVec.eq_of_getLsbD_eq fun k hk => ?_
    have hin : k < 7 - 4 + 1 := hk
    simp only [BitVec.getLsbD_extractLsb, getLsbD_statusWord_four_add, hin, decide_true, Bool.true_and]
  · refine BitVec.eq_of_getLsbD_eq fun k _ => ?_
    have hzero : s.fcode.getLsbD (4 + k) = false := BitVec.getLsbD_of_ge _ _ (by omega)
    have hbit : s.statusWord.getLsbD (8 + k) = false := by
      rw [← hzero, ← getLsbD_statusWord_four_add, ← Nat.add_assoc]
    simp [hbit]

/-! ## The state right after reset -/

/-- 10_state.md R49: STATUS reads 0 right after reset. -/
@[simp] theorem resetWith_statusWord (p : Params) : (State.resetWith p).statusWord = 0 := by
  simp [State.statusWord, State.resetWith]

/-- Settles O54: the register files and STATUS by their laws, every other register by the definition of the reset state. -/
theorem resetStateValues : Obligations.ResetStateValues := fun p =>
  ⟨resetWith_readW p, resetWith_readRK p, rfl, rfl, rfl, rfl, rfl, rfl, rfl, rfl, resetWith_statusWord p,
    Params.reference, rfl⟩

/-- 10_state.md R49: the invariant holds right after reset: no flag is set, and nothing is written in BUF. -/
theorem resetWith_inv (p : Params) : (State.resetWith p).Inv where
  notBusyAndFaulted := fun ⟨hbusy, _⟩ => nomatch hbusy
  quietWithoutFault := fun _ => ⟨rfl, rfl⟩
  codeOfFault := nofun
  contextIsSchedule := nofun
  emptyContext := fun _ => resetWith_readRK p
  failedLength := nofun
  bufCanonical := .nil
  bufInside := nofun

/-- Settles O55, field by field in `resetWith_inv`. -/
theorem resetSatisfiesInvariant : Obligations.ResetSatisfiesInvariant :=
  resetWith_inv

/-! ## What a command writes of PEND, the context and the key-error flags -/

/-- 10_state.md R50, R27: every command ends with BUSY = 0 and keeps PEND. -/
theorem exec_ends {i : Instr} {s t : State} (h : exec i s = .next t) : t.busy = false ∧ t.pend = s.pend := by
  rcases exec_cases i s with ⟨w, he⟩ | ⟨-, mk, he⟩ | ⟨r, -, -, he⟩ | ⟨d, r, x, -, -, he⟩ | ⟨c, -, -, he⟩ <;>
    cases he.symm.trans h <;> exact ⟨rfl, rfl⟩

/-- 10_state.md R50, R24: a command that is no key setup leaves RK, KV, KERR and ERRLEN. -/
theorem exec_keeps_context_and_keyError {i : Instr} {s t : State} (h : exec i s = .next t)
    (hi : ¬((∃ q, i = .keyexp q) ∨ ∃ r, i = .keyexpm r)) : SameContext s t ∧ SameKeyError s t := by
  rcases exec_cases i s with ⟨w, he⟩ | ⟨hk, -⟩ | ⟨r, hr, -⟩ | ⟨d, r, x, -, -, he⟩ | ⟨c, -, -, he⟩
  · cases he.symm.trans h
    exact ⟨⟨rfl, rfl⟩, ⟨rfl, rfl⟩⟩
  · exact absurd hk hi
  · exact absurd (.inr ⟨r, hr⟩) hi
  · cases he.symm.trans h
    exact ⟨⟨rfl, rfl⟩, ⟨rfl, rfl⟩⟩
  · cases he.symm.trans h
    exact ⟨⟨rfl, rfl⟩, ⟨rfl, rfl⟩⟩

/-- 10_state.md R29: only the key-size error writes ERRLEN, and it sets KERR. -/
theorem exec_errlen_or_kerr {i : Instr} {s t : State} (h : exec i s = .next t) :
    t.errlen = s.errlen ∨ t.kerr = true := by
  rcases exec_cases i s with ⟨w, he⟩ | ⟨-, mk, he⟩ | ⟨r, -, -, he⟩ | ⟨d, r, x, -, -, he⟩ | ⟨c, -, -, he⟩ <;>
    cases he.symm.trans h
  case inr.inr.inl => exact .inr rfl
  all_goals exact .inl rfl

/-- Settles O47, clause by clause from the lemmas above. -/
theorem commandsWriteTheirFlagsOnly : Obligations.CommandsWriteTheirFlagsOnly := by
  intro i s t h
  obtain ⟨hbusy, hpend⟩ := exec_ends h
  refine ⟨hbusy, hpend, fun hq hr => exec_keeps_context_and_keyError h ?_, (exec_errlen_or_kerr h).resolve_left⟩
  rintro (⟨q, hi⟩ | ⟨r, hi⟩)
  · exact hq q hi
  · exact hr r hi

/-! ## What a step writes of the context -/

/-- 10_state.md R24, 30_encoding.md R98: an engine step that changes the context runs a KEYEXP or a KEYEXPM. -/
theorem engineStep_changes_context {s t : State} (h : engineStep s = .next t) (hc : ¬SameContext s t) :
    (∃ q, decode s.pend = .ok (.keyexp q)) ∨ ∃ r, decode s.pend = .ok (.keyexpm r) := by
  unfold engineStep at h
  split at h
  · cases h
    exact absurd ⟨rfl, rfl⟩ hc
  · rename_i i hd
    by_contra hk
    refine hc (exec_keeps_context_and_keyError h ?_).1
    rintro (⟨q, rfl⟩ | ⟨r, rfl⟩)
    · exact hk (.inl ⟨q, hd⟩)
    · exact hk (.inr ⟨r, hd⟩)

/-- 20_memory.md R63: a HostWrite that changes the context writes CTRL with SRST = 1. -/
theorem hostWrite_changes_context {s t : State} {off : BitVec 16} {v : Word} (h4 : off.toNat % 4 = 0)
    (h : s.hostWrite off v = .ok t) (hc : ¬SameContext s t) : off = 0x0008 ∧ v.getLsbD 0 = true := by
  rcases hostWrite_cases s v h4 with
      ⟨ho, hv, -⟩ | he | ⟨-, -, he⟩ | ⟨-, -, he⟩ | ⟨-, -, r, he⟩ | ⟨-, -, a, -, he⟩
  case inl => exact ⟨BitVec.eq_of_toNat_eq ho, hv⟩
  all_goals
    cases he.symm.trans h
    exact absurd ⟨rfl, rfl⟩ hc

/-- 10_state.md R23, R25: an action of the outside world that changes the context is a reset, by the reset input or by a
write of CTRL. -/
theorem takeAction_changes_context {a : Action} {s t : State} (h : takeAction a s = .next t)
    (hc : ¬SameContext s t) : a = .reset ∨ ∃ v, a = .write 0x0008 v ∧ v.getLsbD 0 = true := by
  cases ha : a.expressible with
  | false =>
    obtain ⟨off, he⟩ := takeAction_inexpressible a s ha
    cases he.symm.trans h
  | true =>
    rcases takeAction_cases a s ha with ⟨hr, -⟩ | ⟨off, v, -, he⟩ | ⟨off, v, u, hw, h4, hu, he⟩
    · exact .inl hr
    · cases he.symm.trans h
      exact absurd ⟨rfl, rfl⟩ hc
    · cases he.symm.trans h
      obtain ⟨rfl, hv⟩ := hostWrite_changes_context h4 hu hc
      exact .inr ⟨v, hw, hv⟩

/-- Settles O44, by the three kinds of step: the engine's, the outside world's next action, and waiting. -/
theorem contextChangesOnlyBySetupOrReset : Obligations.ContextChangesOnlyBySetupOrReset := by
  intro s t h hchange
  have hc : ¬SameContext s t := fun ⟨hrk, hkv⟩ => hchange.elim (absurd hrk) (absurd hkv)
  rcases step_cases s with ⟨turn, he⟩ | ⟨turn, e, rest, hev, he⟩ | ⟨-, -, -, he⟩
  · exact .inl ⟨turn, engineStep_changes_context (he.symm.trans h) hc⟩
  · have hc' : ¬SameContext { s with events := rest } t := fun ⟨hrk, hkv⟩ => hc ⟨hrk, hkv⟩
    exact .inr ⟨turn, e, rest, hev, takeAction_changes_context (he.symm.trans h) hc'⟩
  · cases he.symm.trans h
    exact absurd ⟨rfl, rfl⟩ hc

end Sys2Proof.Machine
end

section
/-! PROOFS. When a step stops (20_memory.md R61, R76) and which bytes of BUF a command may write (R71). -/

namespace Sys2Proof.Machine

/-! ## The next event of the outside world -/

/-- Settles O10: of the three kinds of step, the last two are those in which the engine does not move. -/
theorem outsideEventsHappenInOrder : Obligations.OutsideEventsHappenInOrder := by
  intro s hturn
  rcases step_cases s with ⟨turn, -⟩ | ⟨-, e, rest, hev, he⟩ | ⟨-, hev, hbusy, he⟩
  · exact absurd turn hturn
  · refine ⟨fun e' rest' hev' => ?_, fun hnil => nomatch hev.symm.trans hnil⟩
    cases hev.symm.trans hev'
    exact he
  · exact ⟨fun e rest hev' => (nomatch hev.symm.trans hev'), fun _ => ⟨hbusy, he⟩⟩

/-- 93_implementation_defined.md I13: the refusal of a misaligned transaction names its own offset. -/
theorem takeAction_misaligned {a : Action} {off : BitVec 16} (s : State) (ha : a = .read off ∨ ∃ v, a = .write off v)
    (h4 : off.toNat % 4 ≠ 0) : takeAction a s = .refused (.hostAccessNotExpressible off) := by
  rcases ha with rfl | ⟨v, rfl⟩
  · exact if_neg h4
  · exact if_neg h4

/-- Settles O12: the step is the next event (`outsideEventsHappenInOrder`), which is refused. -/
theorem misalignedTransactionRefused : Obligations.MisalignedTransactionRefused := by
  intro s e rest off hturn hev ha h4
  rw [(outsideEventsHappenInOrder s hturn).1 e rest hev]
  exact takeAction_misaligned _ ha h4

/-! ## Answers: no command, engine step or expressible action stops -/

theorem exec_answers (i : Instr) (s : State) : ∃ t, exec i s = .next t := by
  rcases exec_cases i s with ⟨w, he⟩ | ⟨-, mk, he⟩ | ⟨r, -, -, he⟩ | ⟨d, r, x, -, -, he⟩ | ⟨c, -, -, he⟩ <;>
    exact ⟨_, he⟩

/-- 30_encoding.md R96, R98: an illegal word is answered by its fault, any other by its command. -/
theorem engineStep_answers (s : State) : ∃ t, engineStep s = .next t := by
  unfold engineStep
  split
  · exact ⟨_, rfl⟩
  · exact exec_answers _ s

theorem takeAction_answers {a : Action} (s : State) (ha : a.expressible = true) : ∃ t, takeAction a s = .next t := by
  rcases takeAction_cases a s ha with ⟨-, he⟩ | ⟨off, v, -, he⟩ | ⟨off, v, t, -, -, -, he⟩ <;> exact ⟨_, he⟩

/-- Settles O11, by the three kinds of step: the engine's, the outside world's next action, and waiting. -/
theorem stepNeverStops : Obligations.StepNeverStops := by
  intro s hexp
  rcases step_cases s with ⟨-, he⟩ | ⟨-, e, rest, hev, he⟩ | ⟨-, -, -, he⟩
  · rw [he]
    exact engineStep_answers s
  · rw [he]
    exact takeAction_answers _ (hexp e rest hev)
  · exact ⟨s, he⟩

/-! ## The bytes of BUF a command may write -/

/-- 20_memory.md R71: a command leaves BUF, or it is ENCM or DECM and leaves every byte outside the 16 at the destination
offset. -/
theorem exec_keeps_buf_outside_destination {i : Instr} {s t : State} (h : exec i s = .next t) :
    SameBuf s t ∨ ∃ d r, (i = .encm d r ∨ i = .decm d r) ∧
      ∀ a, ¬((s.descriptor d).off ≤ a ∧ a < (s.descriptor d).off + 16) → t.bufByte a = s.bufByte a := by
  rcases exec_cases i s with ⟨w, he⟩ | ⟨-, mk, he⟩ | ⟨r, -, -, he⟩ | ⟨d, r, x, hi, -, he⟩ | ⟨c, -, -, he⟩ <;>
    cases he.symm.trans h
  case inr.inr.inr.inl => exact .inr ⟨d, r, hi, (blockStored_putBlock s _ x).otherBytes⟩
  all_goals exact .inl fun _ => rfl

/-- The destination register of an ENCM or a DECM is determined by the command. -/
theorem destination_unique {i : Instr} {d d' r r' : Reg} (h : i = .encm d r ∨ i = .decm d r)
    (h' : i = .encm d' r' ∨ i = .decm d' r') : d = d' := by
  rcases h with rfl | rfl <;> rcases h' with h' | h' <;> cases h' <;> rfl

/-- Settles O45, both clauses from `exec_keeps_buf_outside_destination`. -/
theorem commandsWriteOnlyDestinationBytes : Obligations.CommandsWriteOnlyDestinationBytes := by
  intro i s t h
  rcases exec_keeps_buf_outside_destination h with hsame | ⟨d, r, hi, hout⟩
  · exact ⟨fun _ => hsame, fun _ _ _ a _ => hsame a⟩
  · refine ⟨fun hne => (hi.elim (hne d r).1 (hne d r).2).elim, fun d' r' hi' => ?_⟩
    rw [← destination_unique hi hi']
    exact hout

end Sys2Proof.Machine
end

section
/-! PROOFS. What the host port answers: a HostRead at every offset (20_memory.md R62), a HostWrite case by case (R63, R64),
and the byte order of a host word in BUF (R67). -/

namespace Sys2Proof.Machine

variable {s : State} {off : BitVec 16} {v : Word}

/-! ## HostRead -/

/-- A transaction at a multiple of 4 is answered by what HostRead returns. -/
theorem takeAction_read (h4 : off.toNat % 4 = 0) (h : s.hostRead off = .ok v) :
    takeAction (.read off) s = .next (s.replied off v) := by
  simp only [takeAction, h4, h, if_true]

/-- 20_memory.md R62: the answer to a read is no state of the engine. -/
theorem sameEngine_replied (s : State) (off : BitVec 16) (v : Word) : SameEngine s (s.replied off v) :=
  ⟨fun _ => rfl, ⟨rfl, rfl⟩, ⟨rfl, rfl⟩, ⟨rfl, rfl, rfl⟩, fun _ => rfl, rfl, rfl, rfl⟩

/-- 10_state.md R38: STATUS is its fields in order, with zeros above. -/
theorem statusWord_eq_append (s : State) :
    s.statusWord = 0#24 ++ s.fcode ++ BitVec.ofBool s.fault ++ BitVec.ofBool s.kerr ++ BitVec.ofBool s.kv ++
      BitVec.ofBool s.busy := by
  refine BitVec.eq_of_toNat_eq ?_
  rw [State.statusWord, BitVec.toNat_setWidth_of_le (by decide)]
  simp only [BitVec.toNat_append, BitVec.toNat_ofNat, Nat.zero_mod, Nat.zero_shiftLeft, Nat.zero_or]

/-- A halfword with zeros above (00_scope.md R10). -/
theorem setWidth_halfword (x : BitVec 16) : x.setWidth 32 = 0#16 ++ x :=
  BitVec.setWidth_eq_append (by decide)

/-- 10_state.md R36: from 0x0020 on the port holds nothing but the three windows. -/
theorem hostRead_above_registers (s : State) (h : 0x0020 ≤ off.toNat) :
    s.hostRead off =
      if inWWindow off.toNat then
        if s.busy then .ok (Config.any32 s.draws) else .ok (s.readW (Fin.ofNat 16 ((off.toNat - 0x0040) / 4)))
      else if inRKWindow off.toNat then
        if s.busy then .ok (Config.any32 s.draws) else .ok (s.readRK (Fin.ofNat 32 ((off.toNat - 0x0080) / 4)))
      else if inBufWindow s.params off.toNat then
        if s.busy then .ok (Config.any32 s.draws) else s.memRead4 (off.toNat - 0x1000)
      else .ok 0 := by
  unfold State.hostRead
  simp only
  iterate 7 rw [if_neg (by omega)]

/-- The register at the place of its own window offset. -/
theorem ofNat_windowIndex {n base o : Nat} [NeZero n] (i : Fin n) (h : o = base + 4 * i.val) :
    Fin.ofNat n ((o - base) / 4) = i := by
  have hi : (o - base) / 4 = i.val := by omega
  rw [hi]
  exact Fin.ofNat_val_eq_self i

theorem hostRead_w (s : State) (r : Reg) (h : off.toNat = 0x0040 + 4 * r.val) :
    s.hostRead off = if s.busy then .ok (Config.any32 s.draws) else .ok (s.readW r) := by
  rw [hostRead_above_registers s (by omega), if_pos (by omega), ofNat_windowIndex r h]

theorem hostRead_rk (s : State) (i : RoundIndex) (h : off.toNat = 0x0080 + 4 * i.val) :
    s.hostRead off = if s.busy then .ok (Config.any32 s.draws) else .ok (s.readRK i) := by
  rw [hostRead_above_registers s (by omega), if_neg (by omega), if_pos (by omega),
    ofNat_windowIndex i h]

/-- 10_state.md R47, 00_scope.md R7: an aligned offset into BUF is in its window, with the word's four bytes inside BUF. -/
theorem inBufWindow_of_aligned {p : Params} {o a : Nat} (h4 : o % 4 = 0) (h : o = 0x1000 + a) (ha : a < p.bufBytes) :
    inBufWindow p o ∧ a + 4 ≤ p.bufBytes := by
  have hp := bufBytes_legal p
  unfold inBufWindow
  omega

theorem hostRead_buf (s : State) {a : Nat} (h4 : off.toNat % 4 = 0) (h : off.toNat = 0x1000 + a)
    (ha : a < s.params.bufBytes) :
    s.hostRead off = if s.busy then .ok (Config.any32 s.draws) else .ok (s.bufWord a) := by
  obtain ⟨hin, ha4⟩ := inBufWindow_of_aligned h4 h ha
  have hsub : off.toNat - 0x1000 = a := by omega
  rw [hostRead_above_registers s (by omega), if_neg (by omega), if_neg (by omega),
    if_pos hin, hsub, memRead4_ok ha4]

/-- 20_memory.md R62: a reserved offset reads as 0. -/
theorem hostRead_reserved (s : State)
    (h : (0x0020 ≤ off.toNat ∧ off.toNat ≤ 0x003C) ∨ (0x0100 ≤ off.toNat ∧ off.toNat ≤ 0x0FFC) ∨
      0x1000 + s.params.bufBytes ≤ off.toNat) : s.hostRead off = .ok 0 := by
  have hp := bufBytes_legal s.params
  rw [hostRead_above_registers s (by omega), if_neg (by omega), if_neg (by omega),
    if_neg (by omega)]

/-- 20_memory.md R62: in a window a read gives the value there while BUSY = 0, and draws a free value while BUSY = 1. -/
theorem window_read {x : Word}
    (hwin : inWWindow off.toNat ∨ inRKWindow off.toNat ∨ inBufWindow s.params off.toNat)
    (hv : s.hostRead off = .ok v) (h : s.hostRead off = if s.busy then .ok (Config.any32 s.draws) else .ok x) :
    (s.busy = true → v = Config.any32 s.draws ∧ (s.replied off v).draws = s.draws + 1) ∧ (s.busy = false → v = x) := by
  rw [hv] at h
  cases hb : s.busy with
  | true =>
    have hany : s.readsAny off = true := by simp [State.readsAny, hb, hwin]
    rw [hb, if_pos rfl] at h
    exact ⟨fun _ => ⟨Except.ok.inj h, if_pos hany⟩, nofun⟩
  | false =>
    rw [hb, if_neg Bool.false_ne_true] at h
    exact ⟨nofun, fun _ => Except.ok.inj h⟩

/-- Settles O50: the word read is the one `hostRead_ok` gives, and each clause reads it off the equation of its offset. -/
theorem hostReadReturns : Obligations.HostReadReturns := by
  intro s off h4
  obtain ⟨v, hv⟩ := hostRead_ok s h4
  have value {x : Word} (hx : s.hostRead off = .ok x) : v = x := Except.ok.inj (hv.symm.trans hx)
  refine ⟨s.replied off v, v, takeAction_read h4 hv, sameEngine_replied s off v, rfl, rfl, ?id, ?status, ?zero, ?errlen,
    ?finfo, ?bufsz, ?last, fun r hr => window_read (.inl (by omega)) hv (hostRead_w s r hr),
    fun i hi => window_read (.inr (.inl (by omega))) hv (hostRead_rk s i hi),
    fun a ha hlt => window_read (.inr (.inr (inBufWindow_of_aligned h4 ha hlt).1)) hv (hostRead_buf s h4 ha hlt),
    fun hres => value (hostRead_reserved s hres)⟩
  case id => rintro rfl; exact value rfl
  case status => rintro rfl; exact (value rfl).trans (statusWord_eq_append s)
  case zero => rintro (rfl | rfl) <;> exact value rfl
  case errlen => rintro rfl; exact (value rfl).trans (setWidth_halfword s.errlen)
  case finfo => rintro rfl; exact value rfl
  case bufsz =>
    rintro rfl
    have hp := bufBytes_legal s.params
    rw [value (x := BitVec.ofNat 32 s.params.bufBytes) rfl]
    exact Nat.mod_eq_of_lt (by omega)
  case last => rintro rfl; exact value rfl

/-! ## HostWrite -/

/-- A transaction at a multiple of 4 leaves what HostWrite leaves. -/
theorem takeAction_write {t : State} (h4 : off.toNat % 4 = 0) (h : s.hostWrite off v = .ok t) :
    takeAction (.write off v) s = .next t := by
  simp only [takeAction, h4, h, if_true]

theorem hostWrite_ctrl (s : State) (v : Word) :
    s.hostWrite 0x0008 v = .ok (if v.getLsbD 0 then s.resetEngine else s) := rfl

theorem toNat_ne_ctrl (h : off ≠ 0x0008) : off.toNat ≠ 0x0008 := fun e => h (BitVec.eq_of_toNat_eq e)

theorem hostWrite_faulted (v : Word) (h8 : off ≠ 0x0008) (hf : s.fault = true) : s.hostWrite off v = .ok s := by
  simp only [State.hostWrite, if_neg (toNat_ne_ctrl h8), hf, if_true]

/-- 60_exceptions.md R218: aborting the pending command adds nothing to the fault's own four writes. -/
@[simp] theorem raiseFault_abortPending (s : State) (c : FaultCause) (info : Word) :
    s.abortPending.raiseFault c info = s.raiseFault c info := rfl

theorem hostWrite_busy (v : Word) (h8 : off ≠ 0x0008) (hf : s.fault = false) (hb : s.busy = true) :
    s.hostWrite off v = .ok (s.raiseFault .busyWrite (0#16 ++ off)) := by
  simp [State.hostWrite, toNat_ne_ctrl h8, hf, hb, setWidth_halfword]

section
variable (v) (hf : s.fault = false) (hb : s.busy = false)
include hf hb

/-- 20_memory.md R63: with BUSY = 0 and FAULT = 0 the offset alone decides what a write does. -/
theorem hostWrite_idle (h8 : off.toNat ≠ 0x0008) :
    s.hostWrite off v =
      if off.toNat = 0x000C then .ok (s.acceptCommand v)
      else if inWWindow off.toNat then .ok (s.writeW (Fin.ofNat 16 ((off.toNat - 0x0040) / 4)) v)
      else if inBufWindow s.params off.toNat then s.memWrite4 (off.toNat - 0x1000) v
      else .ok s := by
  simp [State.hostWrite, h8, hf, hb]

theorem hostWrite_w (r : Reg) (h : off.toNat = 0x0040 + 4 * r.val) : s.hostWrite off v = .ok (s.writeW r v) := by
  rw [hostWrite_idle v hf hb (by omega), if_neg (by omega), if_pos (by omega), ofNat_windowIndex r h]

theorem hostWrite_buf {a : Nat} (h4 : off.toNat % 4 = 0) (h : off.toNat = 0x1000 + a) (ha : a < s.params.bufBytes) :
    s.hostWrite off v = .ok { s with buf := s.buf.putWord a v } := by
  obtain ⟨hin, ha4⟩ := inBufWindow_of_aligned h4 h ha
  have hsub : off.toNat - 0x1000 = a := by omega
  rw [hostWrite_idle v hf hb (by omega), if_neg (by omega), if_neg (by omega), if_pos hin, hsub,
    memWrite4_ok v ha4]

/-- 20_memory.md R64: a write of a read-only or a reserved offset is ignored. -/
theorem hostWrite_ignored
    (h : off.toNat < 0x0008 ∨ (0x0010 ≤ off.toNat ∧ off.toNat ≤ 0x003C) ∨ (0x0080 ≤ off.toNat ∧ off.toNat ≤ 0x0FFC) ∨
      0x1000 + s.params.bufBytes ≤ off.toNat) : s.hostWrite off v = .ok s := by
  have hp := bufBytes_legal s.params
  rw [hostWrite_idle v hf hb (by omega), if_neg (by omega), if_neg (by omega),
    if_neg (by omega)]

end

/-- A host's write of W with BUSY = 0 leaves the frame of a command that has completed. -/
theorem registerWritten_idle (hb : s.busy = false) (r : Reg) (v : Word) : RegisterWritten s (s.writeW r v) r v := by
  have hc : (s.writeW r v).complete = s.writeW r v := by simp [State.complete, State.writeW, hb]
  rw [← hc]
  exact registerWritten_writeW s r v

/-- Settles O51: each clause is the equation of its case of HostWrite, with the frame of the operation it names. -/
theorem hostWriteDoes : Obligations.HostWriteDoes := by
  intro s off v h4
  refine ⟨?reset, ?noReset, fun h8 hf => takeAction_write h4 (hostWrite_faulted v h8 hf), fun h8 hf hb =>
      ⟨_, takeAction_write h4 (hostWrite_busy v h8 hf hb), faultTaken_raiseFault s .busyWrite _⟩,
    fun hf hb => ⟨?cmd, fun r hr => ⟨_, takeAction_write h4 (hostWrite_w v hf hb r hr), registerWritten_idle hb r v⟩,
      fun a ha hlt => ⟨_, takeAction_write h4 (hostWrite_buf v hf hb h4 ha hlt), wordStored_putWord s a v⟩,
      fun hro => takeAction_write h4 (hostWrite_ignored v hf hb hro)⟩⟩
  case reset =>
    rintro rfl hv
    exact ⟨s.resetEngine, takeAction_write h4 (by rw [hostWrite_ctrl, hv, if_pos rfl]), resetTaken_resetEngine s, rfl⟩
  case noReset =>
    rintro rfl hv
    exact takeAction_write h4 (by rw [hostWrite_ctrl, hv, if_neg Bool.false_ne_true])
  case cmd =>
    rintro rfl
    exact takeAction_write h4 ((hostWrite_idle v hf hb (by decide)).trans (if_pos rfl))

/-! ## A host word in BUF -/

/-- Settles O52: the word read is its bytes by definition; the write is `hostWrite_buf`, its bytes `wordStored_putWord` and
its reading back `bufWord_putWord_same`. -/
theorem bufWordsAreBigEndian : Obligations.BufWordsAreBigEndian := by
  intro s a v h4 ha hf hb
  have hp := bufBytes_legal s.params
  have hoff : (BitVec.ofNat 16 (0x1000 + a)).toNat = 0x1000 + a := Nat.mod_eq_of_lt (by omega)
  have hoff4 : (BitVec.ofNat 16 (0x1000 + a)).toNat % 4 = 0 := by omega
  have hw := wordStored_putWord s a v
  exact ⟨rfl, _, takeAction_write hoff4 (hostWrite_buf v hf hb hoff4 hoff ha), hw.byte0, hw.byte1, hw.byte2, hw.byte3,
    bufWord_putWord_same s a v⟩

end Sys2Proof.Machine
end

section
/-! PROOFS. The encoding
    (30_encoding.md R91 to R103): decoding undoes encoding and encoding undoes decoding, the decoder
agrees with the table of masks and matches, and an illegal word faults. -/

namespace Sys2Proof

/-! ## Decoding the word of a command -/

/-- 30_encoding.md R92, R95, R98: the word of every command is legal. -/
theorem legalWord (i : Instr) : Laws.LegalWord.Statement i := by
  cases i with
  | nop => exact Laws.LegalWord.nop
  | sbox wd ws => exact Laws.LegalWord.sbox wd ws
  | tau wd ws => exact Laws.LegalWord.tau wd ws
  | lenc wd ws => exact Laws.LegalWord.lenc wd ws
  | lkey wd ws => exact Laws.LegalWord.lkey wd ws
  | tenc wd ws => exact Laws.LegalWord.tenc wd ws
  | tkey wd ws => exact Laws.LegalWord.tkey wd ws
  | xor wd ws1 ws2 => exact Laws.LegalWord.xor wd ws1 ws2
  | rnd qd ws => exact Laws.LegalWord.rnd qd ws
  | krnd qd k => exact Laws.LegalWord.krnd qd k
  | fkx qd => exact Laws.LegalWord.fkx qd
  | rev qd => exact Laws.LegalWord.rev qd
  | keyexp qs => exact Laws.LegalWord.keyexp qs
  | enc qd qs => exact Laws.LegalWord.enc qd qs
  | dec qd qs => exact Laws.LegalWord.dec qd qs
  | keyexpm wk => exact Laws.LegalWord.keyexpm wk
  | encm wdst wsrc => exact Laws.LegalWord.encm wdst wsrc
  | decm wdst wsrc => exact Laws.LegalWord.decm wdst wsrc

/-- 30_encoding.md R98: the zero bits of the format are all that stands between an assigned opcode and its command. -/
theorem legal_eq_ok_iff {f : Format} {c : Word} {i j : Instr} :
    legal f c i = .ok j ↔ f.zerosHold c = true ∧ i = j := by
  unfold legal
  split <;> simp_all

/-- Settles O2: the word's opcode and zero bits are `legalWord`; each operand is read back by its field's own law. -/
theorem decodeOfEncode : Obligations.DecodeOfEncode := by
  intro i
  obtain ⟨hop, f, hf, hz⟩ := legalWord i
  unfold decode
  rw [hop]
  cases i
  all_goals
    obtain rfl := Option.some.inj hf
    refine legal_eq_ok_iff.2 ⟨hz, ?_⟩
    simp [encode]

/-! ## Encoding what a word decodes to -/

section
variable {c d : Word} {hi lo : Nat}

/-- 00_scope.md R9: `v[hi:lo]` is the bits of v from lo to hi. -/
theorem bits_eq_iff (hle : lo ≤ hi) :
    bits c hi lo = bits d hi lo ↔ ∀ k, lo ≤ k ∧ k ≤ hi → c.getLsbD k = d.getLsbD k := by
  constructor
  · rintro h k ⟨hlo, hhi⟩
    have hk := congrArg (·.getLsbD (k - lo)) h
    have hlt : k - lo < hi - lo + 1 := by omega
    simpa [BitVec.getLsbD_extractLsb, hlt, Nat.add_sub_cancel' hlo] using hk
  · intro h
    refine BitVec.eq_of_getLsbD_eq fun k hk => ?_
    simp [h (lo + k) (by omega)]

@[simp] theorem bits_zero : bits (0 : Word) hi lo = 0 := by
  simp [bits]

/-- Every range inside one of zero bits is 0. -/
theorem subrange_eq_zero (h : bits c hi lo = 0) {hi' lo' : Nat}
    (hsub : lo ≤ lo' ∧ lo' ≤ hi' ∧ hi' ≤ hi := by decide) : bits c hi' lo' = 0 := by
  rw [← bits_zero, bits_eq_iff (by omega)] at h ⊢
  exact fun k hk => h k (by omega)

/-- A range of zero bits, as a number. -/
theorem toNat_eq_zero_of_bits_eq_zero (h : bits c hi lo = 0) : c.toNat / 2 ^ lo % 2 ^ (hi - lo + 1) = 0 := by
  rw [← toNat_bits, h]
  rfl

/-- 30_encoding.md R93: a quartet field's two low bits are 0. -/
theorem bits_rd_eq_quartetField (h : bits c 21 20 = 0) : bits c 23 20 = quartetField (rdQuartet c) := by
  have hlow := toNat_eq_zero_of_bits_eq_zero h
  have hq : (rdQuartet c).val = (bits c 23 22).toNat := rfl
  refine BitVec.eq_of_toNat_eq ?_
  rw [quartetField_toNat, hq, toNat_bits, toNat_bits]
  omega

/-- 30_encoding.md R93: the same of a quartet in the rs1 field. -/
theorem bits_rs1_eq_quartetField (h : bits c 17 16 = 0) : bits c 19 16 = quartetField (rs1Quartet c) := by
  have hlow := toNat_eq_zero_of_bits_eq_zero h
  have hq : (rs1Quartet c).val = (bits c 19 18).toNat := rfl
  refine BitVec.eq_of_toNat_eq ?_
  rw [quartetField_toNat, hq, toNat_bits, toNat_bits]
  omega

/-- 30_encoding.md R94: KRND's c[11:5] are 0. -/
theorem bits_imm_eq_indexField (h : bits c 11 5 = 0) : bits c 11 0 = indexField (immIndex c) := by
  have hlow := toNat_eq_zero_of_bits_eq_zero h
  have hi : (immIndex c).val = (bits c 4 0).toNat := rfl
  refine BitVec.eq_of_toNat_eq ?_
  rw [indexField_toNat, hi, toNat_bits, toNat_bits]
  omega

/-- A command word is written back from its own fields, under whatever names they go. -/
theorem fieldsWord_eq {op : BitVec 8} {rd rs1 rs2 : BitVec 4} {imm : BitVec 12} (hop : opField c = op)
    (hrd : bits c 23 20 = rd) (hrs1 : bits c 19 16 = rs1) (hrs2 : bits c 15 12 = rs2) (himm : bits c 11 0 = imm) :
    fieldsWord op rd rs1 rs2 imm = c := by
  rw [← hop, ← hrd, ← hrs1, ← hrs2, ← himm, fieldsWord_fields]

/-! A legal word, format by format (R92): it is written from the operands read in it, its other fields being 0. -/

section
variable {op : BitVec 8}

theorem fieldsWord_of_n (hop : opField c = op) (hz : Format.zerosHold .n c = true) :
    fieldsWord op 0#4 0#4 0#4 0#12 = c := by
  have hlow := beq_iff_eq.1 hz
  exact fieldsWord_eq hop (subrange_eq_zero hlow) (subrange_eq_zero hlow) (subrange_eq_zero hlow)
    (subrange_eq_zero hlow)

theorem fieldsWord_of_r2 (hop : opField c = op) (hz : Format.zerosHold .r2 c = true) :
    fieldsWord op (regField (rdReg c)) (regField (rs1Reg c)) 0#4 0#12 = c := by
  have hlow := beq_iff_eq.1 hz
  exact fieldsWord_eq hop rfl rfl (subrange_eq_zero hlow) (subrange_eq_zero hlow)

theorem fieldsWord_of_r3 (hop : opField c = op) (hz : Format.zerosHold .r3 c = true) :
    fieldsWord op (regField (rdReg c)) (regField (rs1Reg c)) (regField (rs2Reg c)) 0#12 = c := by
  have hlow := beq_iff_eq.1 hz
  exact fieldsWord_eq hop rfl rfl rfl hlow

theorem fieldsWord_of_q (hop : opField c = op) (hz : Format.zerosHold .q c = true) :
    fieldsWord op (quartetField (rdQuartet c)) 0#4 0#4 0#12 = c := by
  have hlow := beq_iff_eq.1 hz
  exact fieldsWord_eq hop (bits_rd_eq_quartetField (subrange_eq_zero hlow)) (subrange_eq_zero hlow)
    (subrange_eq_zero hlow) (subrange_eq_zero hlow)

theorem fieldsWord_of_qr (hop : opField c = op) (hz : Format.zerosHold .qr c = true) :
    fieldsWord op (quartetField (rdQuartet c)) 0#4 (regField (rs2Reg c)) 0#12 = c := by
  obtain ⟨hhigh, hlow⟩ := Bool.and_eq_true_iff.1 hz
  rw [beq_iff_eq] at hhigh hlow
  exact fieldsWord_eq hop (bits_rd_eq_quartetField (subrange_eq_zero hhigh)) (subrange_eq_zero hhigh) rfl hlow

theorem fieldsWord_of_qi (hop : opField c = op) (hz : Format.zerosHold .qi c = true) :
    fieldsWord op (quartetField (rdQuartet c)) 0#4 0#4 (indexField (immIndex c)) = c := by
  obtain ⟨hhigh, hlow⟩ := Bool.and_eq_true_iff.1 hz
  rw [beq_iff_eq] at hhigh hlow
  exact fieldsWord_eq hop (bits_rd_eq_quartetField (subrange_eq_zero hhigh)) (subrange_eq_zero hhigh)
    (subrange_eq_zero hhigh) (bits_imm_eq_indexField hlow)

theorem fieldsWord_of_qq (hop : opField c = op) (hz : Format.zerosHold .qq c = true) :
    fieldsWord op (quartetField (rdQuartet c)) (quartetField (rs1Quartet c)) 0#4 0#12 = c := by
  obtain ⟨hhigh, hlow⟩ := Bool.and_eq_true_iff.1 hz
  rw [beq_iff_eq] at hhigh hlow
  exact fieldsWord_eq hop (bits_rd_eq_quartetField hhigh) (bits_rs1_eq_quartetField (subrange_eq_zero hlow))
    (subrange_eq_zero hlow) (subrange_eq_zero hlow)

theorem fieldsWord_of_qs (hop : opField c = op) (hz : Format.zerosHold .qs c = true) :
    fieldsWord op 0#4 (quartetField (rs1Quartet c)) 0#4 0#12 = c := by
  obtain ⟨hhigh, hlow⟩ := Bool.and_eq_true_iff.1 hz
  rw [beq_iff_eq] at hhigh hlow
  exact fieldsWord_eq hop hhigh (bits_rs1_eq_quartetField (subrange_eq_zero hlow)) (subrange_eq_zero hlow)
    (subrange_eq_zero hlow)

theorem fieldsWord_of_d1 (hop : opField c = op) (hz : Format.zerosHold .d1 c = true) :
    fieldsWord op 0#4 (regField (rs1Reg c)) 0#4 0#12 = c := by
  obtain ⟨hhigh, hlow⟩ := Bool.and_eq_true_iff.1 hz
  rw [beq_iff_eq] at hhigh hlow
  exact fieldsWord_eq hop hhigh rfl (subrange_eq_zero hlow) (subrange_eq_zero hlow)

theorem fieldsWord_of_d2 (hop : opField c = op) (hz : Format.zerosHold .d2 c = true) :
    fieldsWord op 0#4 (regField (rs1Reg c)) (regField (rs2Reg c)) 0#12 = c := by
  obtain ⟨hhigh, hlow⟩ := Bool.and_eq_true_iff.1 hz
  rw [beq_iff_eq] at hhigh hlow
  exact fieldsWord_eq hop hhigh rfl rfl hlow

end

end

/-- Settles O3: opcode by opcode, a word that decodes is legal, and so is written from the operands read in it. -/
theorem encodeOfDecode : Obligations.EncodeOfDecode := by
  intro c i h
  unfold decode at h
  split at h
  case h_19 => cases h
  all_goals
    rename_i hop
    obtain ⟨hz, rfl⟩ := legal_eq_ok_iff.1 h
  case h_1 => exact fieldsWord_of_n hop hz
  case h_2 | h_3 | h_4 | h_5 | h_6 | h_7 => exact fieldsWord_of_r2 hop hz
  case h_8 => exact fieldsWord_of_r3 hop hz
  case h_9 => exact fieldsWord_of_qr hop hz
  case h_10 => exact fieldsWord_of_qi hop hz
  case h_11 | h_12 => exact fieldsWord_of_q hop hz
  case h_13 => exact fieldsWord_of_qs hop hz
  case h_14 | h_15 => exact fieldsWord_of_qq hop hz
  case h_16 => exact fieldsWord_of_d1 hop hz
  case h_17 | h_18 => exact fieldsWord_of_d2 hop hz

/-! ## The table of masks and matches -/

section
variable {c d m n : Word} {hi lo : Nat}

/-- Two words agree under a mask when they agree at every bit of it. -/
theorem and_eq_and_iff : c &&& m = d &&& m ↔ ∀ k, m.getLsbD k = true → c.getLsbD k = d.getLsbD k := by
  constructor
  · intro h k hk
    simpa [hk] using congrArg (·.getLsbD k) h
  · intro h
    refine BitVec.eq_of_getLsbD_eq fun k _ => ?_
    cases hk : m.getLsbD k with
    | false => simp [hk]
    | true => simp [hk, h k hk]

theorem and_or_eq_and_or_iff :
    c &&& (m ||| n) = d &&& (m ||| n) ↔ c &&& m = d &&& m ∧ c &&& n = d &&& n := by
  simp only [and_eq_and_iff, BitVec.getLsbD_or, Bool.or_eq_true, or_imp, forall_and]

/-- The mask of the bits from lo to hi. -/
def rangeMask (hi lo : Nat) : Word :=
  (BitVec.allOnes (hi - lo + 1)).setWidth 32 <<< lo

theorem getLsbD_rangeMask (hle : lo ≤ hi) (hhi : hi < 32) (k : Nat) :
    (rangeMask hi lo).getLsbD k = true ↔ lo ≤ k ∧ k ≤ hi := by
  simp only [rangeMask, BitVec.getLsbD_shiftLeft, BitVec.getLsbD_setWidth, BitVec.getLsbD_allOnes, Bool.and_eq_true,
    decide_eq_true_eq, Bool.not_eq_true', decide_eq_false_iff_not]
  omega

theorem and_rangeMask_eq_iff (hr : lo ≤ hi ∧ hi < 32 := by decide) :
    c &&& rangeMask hi lo = d &&& rangeMask hi lo ↔ bits c hi lo = bits d hi lo := by
  simp only [and_eq_and_iff, getLsbD_rangeMask hr.1 hr.2, bits_eq_iff hr.1]

theorem bits_beq_zero_iff (hr : lo ≤ hi ∧ hi < 32 := by decide) :
    (bits c hi lo == 0) = true ↔ c &&& rangeMask hi lo = 0 &&& rangeMask hi lo := by
  rw [and_rangeMask_eq_iff hr, bits_zero, beq_iff_eq]

end

/-- The mask of a format's zero bits (30_encoding.md R92, last column). -/
def Format.zeroMask : Format → Word
  | .n => rangeMask 23 0
  | .r2 => rangeMask 15 0
  | .r3 => rangeMask 11 0
  | .q => rangeMask 21 0
  | .qr => rangeMask 21 16 ||| rangeMask 11 0
  | .qi => rangeMask 21 12 ||| rangeMask 11 5
  | .qq => rangeMask 21 20 ||| rangeMask 17 0
  | .qs => rangeMask 23 20 ||| rangeMask 17 0
  | .d1 => rangeMask 23 20 ||| rangeMask 15 0
  | .d2 => rangeMask 23 20 ||| rangeMask 11 0

/-- 30_encoding.md R92: the zero bits hold when the word agrees with 0 under their mask. -/
theorem Format.zerosHold_iff (f : Format) {c : Word} :
    f.zerosHold c = true ↔ c &&& f.zeroMask = 0 &&& f.zeroMask := by
  cases f with
  | n | r2 | r3 | q => exact bits_beq_zero_iff
  | qr | qi | qq | qs | d1 | d2 =>
    rw [zeroMask, and_or_eq_and_or_iff]
    exact Bool.and_eq_true_iff.trans (and_congr bits_beq_zero_iff bits_beq_zero_iff)

/-- 30_encoding.md R103: a row's mask is the opcode and the zero bits of its format; its word lies under the mask with
these bits 0. -/
theorem opcodeTable_masks : ∀ r ∈ opcodeTable, ∃ f ∈ formatOf (opField r.word),
    r.mask = rangeMask 31 24 ||| f.zeroMask ∧ r.word &&& r.mask = r.word ∧ f.zerosHold r.word = true := by
  decide

/-- 30_encoding.md R103: a row matches the words of its opcode whose zero bits hold. -/
theorem matchesWord_iff {r : TableRow} (hr : r ∈ opcodeTable) :
    ∃ f, formatOf (opField r.word) = some f ∧
      ∀ c, r.matchesWord c = true ↔ opField c = opField r.word ∧ f.zerosHold c = true := by
  obtain ⟨f, hf, hmask, hword, hz⟩ := opcodeTable_masks r hr
  refine ⟨f, hf, fun c => ?_⟩
  calc r.matchesWord c = true
    _ ↔ c &&& r.mask = r.word &&& r.mask := by rw [TableRow.matchesWord, beq_iff_eq, hword]
    _ ↔ c &&& rangeMask 31 24 = r.word &&& rangeMask 31 24 ∧ c &&& f.zeroMask = r.word &&& f.zeroMask := by
      rw [hmask, and_or_eq_and_or_iff]
    _ ↔ opField c = opField r.word ∧ f.zerosHold c = true := by
      rw [f.zerosHold_iff.1 hz, ← f.zerosHold_iff, and_rangeMask_eq_iff, opField, opField]

/-- 30_encoding.md R95, R103: one row has a command's opcode, and it is the command's own. -/
theorem opcodeTable_opcode (i : Instr) :
    (opcodeTable.filter fun r => opField r.word = i.opcode).map TableRow.mnemonic = [i.mnemonic] := by
  cases i <;> rfl

/-- 30_encoding.md R98: a word is illegal when its opcode is unassigned, or a bit that must be 0 is 1. -/
theorem illegalWord_iff {c : Word} :
    Machine.IllegalWord c ↔ ∀ f, formatOf (opField c) = some f → f.zerosHold c = false := by
  rcases decode_cases c with ⟨f, i, hf, hz, hd⟩ | ⟨f, hf, hz, hd⟩ | ⟨hf, hd⟩
  · simp [Machine.IllegalWord, hd, hf, hz]
  · simp [Machine.IllegalWord, hd, hf, hz]
  · simp [Machine.IllegalWord, hd, hf]

/-- 30_encoding.md R103: the rows that match the word of a command are those with its opcode. -/
theorem filter_matchesWord_encode (i : Instr) :
    opcodeTable.filter (·.matchesWord (encode i)) = opcodeTable.filter fun r => opField r.word = i.opcode := by
  obtain ⟨hop, g, hg, hz⟩ := legalWord i
  refine List.filter_congr fun r hr => ?_
  obtain ⟨f, hf, hmatch⟩ := matchesWord_iff hr
  rw [Bool.eq_iff_iff, hmatch, hop, decide_eq_true_iff]
  refine ⟨fun h => h.1.symm, fun h => ⟨h.symm, ?_⟩⟩
  rw [h, hg] at hf
  cases hf
  exact hz

/-- 30_encoding.md R98, R103: no row matches an illegal word. -/
theorem matchesWord_illegal {c : Word} (h : Machine.IllegalWord c) {r : TableRow} (hr : r ∈ opcodeTable) :
    r.matchesWord c = false := by
  obtain ⟨f, hf, hmatch⟩ := matchesWord_iff hr
  rw [← Bool.not_eq_true, hmatch]
  rintro ⟨hop, hz⟩
  rw [illegalWord_iff.1 h f (hop ▸ hf)] at hz
  cases hz

/-- Settles O4: a word that decodes is its command's word (`encodeOfDecode`), matched by the row of that opcode. -/
theorem decoderFollowsOpcodeTable : Obligations.DecoderFollowsOpcodeTable := by
  refine fun c => ⟨fun i h => ?_, fun hill => ?_⟩
  · rw [← encodeOfDecode c i h, filter_matchesWord_encode, opcodeTable_opcode]
  · exact List.filter_eq_nil_iff.2 fun r hr => by simp [matchesWord_illegal hill hr]

/-- 30_encoding.md R98, R103: a word that no row matches is illegal. -/
theorem illegalWord_iff_no_row {c : Word} :
    Machine.IllegalWord c ↔ ∀ r ∈ opcodeTable, c &&& r.mask ≠ r.word := by
  refine ⟨fun h r hr => ?_, fun h i hd => ?_⟩
  · simpa [TableRow.matchesWord] using matchesWord_illegal h hr
  · have hnone : opcodeTable.filter (·.matchesWord c) = [] :=
      List.filter_eq_nil_iff.2 fun r hr => by simpa [TableRow.matchesWord] using h r hr
    have hone := (decoderFollowsOpcodeTable c).1 i hd
    rw [hnone] at hone
    cases hone

/-- Settles O1: each word is that of its command, and decodes to it (`decodeOfEncode`). -/
theorem exampleWordsDecode : Obligations.ExampleWordsDecode :=
  ⟨decodeOfEncode .nop, decodeOfEncode (.tau 3 7), decodeOfEncode (.xor 1 2 3), decodeOfEncode (.rev 1),
    decodeOfEncode (.rnd 0 15), decodeOfEncode (.krnd 2 31), decodeOfEncode (.enc 1 0), decodeOfEncode (.keyexp 3),
    decodeOfEncode (.keyexpm 5), decodeOfEncode (.encm 1 0)⟩

end Sys2Proof
end

section
/-! PROOFS. The assembler (30_encoding.md R101, R102): it takes the well-formed lines and no other, and expands the
pseudo-instructions. -/

namespace Sys2Proof

/-! ## Operands -/

/-- 30_encoding.md R101: a written register names one when it is in range. -/
@[simp] theorem isSome_asReg (n : Nat) : (asReg n).isSome = (AsmOperand.w n).inRange := by
  unfold asReg AsmOperand.inRange
  split <;> simp_all

@[simp] theorem isSome_asQuartet (n : Nat) : (asQuartet n).isSome = (AsmOperand.q n).inRange := by
  unfold asQuartet AsmOperand.inRange
  split <;> simp_all

@[simp] theorem isSome_asIndex (n : Nat) : (asIndex n).isSome = (AsmOperand.imm n).inRange := by
  unfold asIndex AsmOperand.inRange
  split <;> simp_all

@[simp] theorem asReg_val (r : Reg) : asReg r.val = some r := by
  simp [asReg]

@[simp] theorem kind_eq_w_iff {o : AsmOperand} : o.kind = .w ↔ ∃ n, o = .w n := by
  cases o <;> simp [AsmOperand.kind]

@[simp] theorem kind_eq_q_iff {o : AsmOperand} : o.kind = .q ↔ ∃ n, o = .q n := by
  cases o <;> simp [AsmOperand.kind]

@[simp] theorem kind_eq_imm_iff {o : AsmOperand} : o.kind = .imm ↔ ∃ n, o = .imm n := by
  cases o <;> simp [AsmOperand.kind]

/-! ## Operand lists -/

section
variable {α β γ δ : Type}

/-- An instruction of three operands is found when each operand is. -/
theorem isSome_three (x : Option α) (y : Option β) (z : Option γ) (f : α → β → γ → δ) :
    (do return f (← x) (← y) (← z)).isSome = (x.isSome && (y.isSome && z.isSome)) := by
  cases x <;> cases y <;> cases z <;> rfl

/-- An instruction of two operands is found when each operand is. -/
theorem isSome_two (x : Option α) (y : Option β) (f : α → β → δ) :
    (do return f (← x) (← y)).isSome = (x.isSome && y.isSome) := by
  cases x <;> cases y <;> rfl

/-- An instruction of one operand is found when the operand is. -/
theorem isSome_one (x : Option α) (f : α → δ) : (do return f (← x)).isSome = x.isSome := by
  cases x <;> rfl

end

/-- The operands have one of these lists of kinds, and every one is in range (R92, R94): what `AsmLine.wellFormed` asks,
with the mnemonic's lists of kinds. -/
def accepts (shapes : List (List OperandKind)) (ops : List AsmOperand) : Bool :=
  shapes.contains (ops.map AsmOperand.kind) && ops.all AsmOperand.inRange

theorem wellFormed_eq_accepts (m : Mnemonic) (ops : List AsmOperand) :
    (AsmLine.mk m ops).wellFormed = accepts m.shapes ops := rfl

/-! ## Each format's lines

The first branches of each parser are the operand lists of its format; the last is every other list, which is no command
and is not accepted. -/

section
variable (ops : List AsmOperand)

theorem isSome_asmR2 (i : Reg → Reg → Instr) :
    (asmR2 i ops).isSome = accepts [[.w, .w]] ops := by
  simp only [asmR2]
  split
  · exact (isSome_two ..).trans (by simp [accepts, AsmOperand.kind])
  · simp_all [accepts, List.map_eq_cons_iff]

theorem isSome_asmQuartet (i : Quartet → Instr) :
    (asmQuartet i ops).isSome = accepts [[.q]] ops := by
  simp only [asmQuartet]
  split
  · exact (isSome_one ..).trans (by simp [accepts, AsmOperand.kind])
  · simp_all [accepts, List.map_eq_cons_iff]

theorem isSome_asmQQ (i : Quartet → Quartet → Instr) :
    (asmQQ i ops).isSome = accepts [[.q, .q], [.q]] ops := by
  simp only [asmQQ]
  split
  · exact (isSome_two ..).trans (by simp [accepts, AsmOperand.kind])
  · exact (isSome_two ..).trans (by simp [accepts, AsmOperand.kind])
  · simp_all [accepts, List.map_eq_cons_iff]

theorem isSome_asmD2 (i : Reg → Reg → Instr) :
    (asmD2 i ops).isSome = accepts [[.w, .w], [.w]] ops := by
  simp only [asmD2]
  split
  · exact (isSome_two ..).trans (by simp [accepts, AsmOperand.kind])
  · exact (isSome_two ..).trans (by simp [accepts, AsmOperand.kind])
  · simp_all [accepts, List.map_eq_cons_iff]

theorem isSome_assemble_xor :
    (assemble ⟨.xor, ops⟩).isSome = accepts [[.w, .w, .w]] ops := by
  simp only [assemble]
  split
  · exact (isSome_three ..).trans (by simp [accepts, AsmOperand.kind])
  · simp_all [accepts, List.map_eq_cons_iff]

theorem isSome_assemble_rnd :
    (assemble ⟨.rnd, ops⟩).isSome = accepts [[.q, .w]] ops := by
  simp only [assemble]
  split
  · exact (isSome_two ..).trans (by simp [accepts, AsmOperand.kind])
  · simp_all [accepts, List.map_eq_cons_iff]

theorem isSome_assemble_krnd :
    (assemble ⟨.krnd, ops⟩).isSome = accepts [[.q, .imm]] ops := by
  simp only [assemble]
  split
  · exact (isSome_two ..).trans (by simp [accepts, AsmOperand.kind])
  · simp_all [accepts, List.map_eq_cons_iff]

theorem isSome_assemble_keyexpm :
    (assemble ⟨.keyexpm, ops⟩).isSome = accepts [[.w]] ops := by
  simp only [assemble]
  split
  · exact (isSome_one ..).trans (by simp [accepts, AsmOperand.kind])
  · simp_all [accepts, List.map_eq_cons_iff]

theorem isSome_assemble_clr :
    (assemble ⟨.clr, ops⟩).isSome = accepts [[.w]] ops := by
  simp only [assemble]
  split
  · exact (isSome_three ..).trans (by simp [accepts, AsmOperand.kind])
  · simp_all [accepts, List.map_eq_cons_iff]

theorem isSome_assemble_nop : (assemble ⟨.nop, ops⟩).isSome = accepts [[]] ops := by
  cases ops with
  | nil => rfl
  | cons o ops => simp [assemble, accepts]

end

/-- Settles O6, mnemonic by mnemonic. -/
theorem assemblesExactlyWellFormedLines : Obligations.AssemblesExactlyWellFormedLines := by
  rintro ⟨m, ops⟩
  rw [wellFormed_eq_accepts]
  cases m with
  | nop => exact isSome_assemble_nop ops
  | sbox | tau | lenc | lkey | tenc | tkey => exact isSome_asmR2 ops _
  | xor => exact isSome_assemble_xor ops
  | rnd => exact isSome_assemble_rnd ops
  | krnd => exact isSome_assemble_krnd ops
  | fkx | rev | keyexp => exact isSome_asmQuartet ops _
  | enc | dec => exact isSome_asmQQ ops _
  | keyexpm => exact isSome_assemble_keyexpm ops
  | encm | decm => exact isSome_asmD2 ops _
  | clr => exact isSome_assemble_clr ops

/-! ## The pseudo-instructions -/

/-- 30_encoding.md R102: CLR wd is XOR wd, wd, wd. -/
theorem assemble_clr (wd : Reg) : assemble ⟨.clr, [.w wd.val]⟩ = some (.xor wd wd wd) := by
  simp [assemble]

/-- Settles O7: the expansions are the assembler's own equations, and a word XOR itself is 0. -/
theorem pseudoInstructionsExpand : Obligations.PseudoInstructionsExpand := by
  refine ⟨fun _ => rfl, fun _ => rfl, fun _ => rfl, fun _ => rfl, fun _ => rfl,
    fun wd s => ⟨assemble_clr wd, _, rfl, ?_⟩⟩
  rw [BitVec.xor_self]
  exact Machine.registerWritten_writeW s wd 0

end Sys2Proof
end

section
/-! PROOFS. The engine step (30_encoding.md R96): it runs the command that PEND decodes to, or takes the fault of an
illegal word (R98). -/

namespace Sys2Proof.Machine

theorem step_of_enginesTurn {s : State} (turn : EnginesTurn s) : step s = engineStep s := by
  rcases step_cases s with ⟨-, he⟩ | ⟨hturn, -⟩ | ⟨hturn, -⟩
  · exact he
  · exact absurd turn hturn
  · exact absurd turn hturn

theorem engineStep_of_decode {s : State} {i : Instr} (h : decode s.pend = .ok i) : engineStep s = exec i s := by
  simp only [engineStep, h]

theorem engineStep_of_illegalWord {s : State} (h : IllegalWord s.pend) :
    engineStep s = .next (s.raiseFault .illegal s.pend) := by
  cases hd : decode s.pend with
  | error e => simp only [engineStep, hd]
  | ok i => exact absurd hd (h i)

/-- Settles O5: the characterisations are `illegalWord_iff` and `illegalWord_iff_no_row`; the step is fault entry. -/
theorem illegalWordsFault : Obligations.IllegalWordsFault := by
  refine ⟨fun _ => illegalWord_iff, fun _ => illegalWord_iff_no_row, ?zeros, ?ones, fun s turn hill => ?fault⟩
  case zeros => exact illegalWord_iff.2 nofun
  case ones => exact illegalWord_iff.2 nofun
  case fault =>
    rw [step_of_enginesTurn turn, engineStep_of_illegalWord hill]
    exact ⟨_, rfl, faultTaken_raiseFault s .illegal s.pend⟩

/-- Settles O8: it is the engine's turn, and its step decodes PEND. -/
theorem stepRunsPendingCommand : Obligations.StepRunsPendingCommand := by
  intro s i turn hd
  rw [step_of_enginesTurn turn, engineStep_of_decode hd]

/-! ## A command word placed as pending -/

@[simp] theorem withFetchWord_pend (s : State) (w : Word) : (s.withFetchWord 32 w.toNat).pend = w := by
  simp [State.withFetchWord, Nat.mod_eq_of_lt w.isLt]

/-- The next event waits for the step of the placed word. -/
theorem enginesTurn_withFetchWord (s : State) (nbits w : Nat) : EnginesTurn (s.withFetchWord nbits w) := by
  refine ⟨rfl, fun e rest he => ?_⟩
  cases hev : s.events with
  | nil => simp [State.withFetchWord, hev] at he
  | cons e' rest' =>
    simp only [State.withFetchWord, hev, List.cons.injEq] at he
    rw [← he.1]

/-- Settles O9: the placed word is pending and decodes to the command (`decodeOfEncode`), on the engine's turn. -/
theorem placedWordRunsNext : Obligations.PlacedWordRunsNext := fun s i =>
  stepRunsPendingCommand _ i (enginesTurn_withFetchWord s 32 _) (by rw [withFetchWord_pend, decodeOfEncode i])

end Sys2Proof.Machine
end

section
/-! PROOFS. The invariant of the engine's state (30_encoding.md R99; 10_state.md R25, R31, R32; 43_context_contract.md
R193, R195): each shared operation keeps it, and so does every step. -/

namespace Sys2Proof.Machine

/-! ## Each shared operation keeps the invariant -/

theorem FaultCause.code_range (c : FaultCause) : 1 ≤ c.code.toNat ∧ c.code.toNat ≤ 6 := by
  cases c <;> decide

section
variable {s : State} (h : s.Inv)
include h

/-- The invariant says nothing of W, of PEND, or of the outside world. -/
theorem State.Inv.with_unread_fields (w : Vector Word 16) (pend : Word) (events : List Event) (replies : List Reply)
    (draws : Nat) :
    ({ s with w := w, pend := pend, events := events, replies := replies, draws := draws } : State).Inv := by
  obtain ⟨hbf, hquiet, hcode, hset, hempty, hlen, hwf, hin⟩ := h
  exact ⟨hbf, hquiet, hcode, hset, hempty, hlen, hwf, hin⟩

theorem State.Inv.complete : s.complete.Inv :=
  { h with notBusyAndFaulted := fun ⟨hbusy, _⟩ => nomatch hbusy }

/-- 30_encoding.md R99: a command is accepted only while FAULT = 0. -/
theorem State.Inv.acceptCommand (hf : s.fault = false) (v : Word) : (s.acceptCommand v).Inv :=
  { h with notBusyAndFaulted := fun ⟨_, hfault⟩ => nomatch hf.symm.trans hfault }

/-- 60_exceptions.md R212: fault entry clears BUSY and gives a code of R211. -/
theorem State.Inv.raiseFault (c : FaultCause) (info : Word) : (s.raiseFault c info).Inv :=
  { h with
    notBusyAndFaulted := fun ⟨hbusy, _⟩ => nomatch hbusy
    quietWithoutFault := nofun
    codeOfFault := fun _ => c.code_range }

/-- 10_state.md R25: a key setup puts a master key's schedule into RK. -/
theorem State.Inv.setContext (mk : Block) : (s.setContext (Cipher.expandKey mk)).Inv :=
  { h with
    contextIsSchedule := fun _ => ⟨mk, rfl⟩
    emptyContext := nofun
    failedLength := nofun }

theorem State.Inv.keySizeError {len : BitVec 16} (hlen : len.toNat ≠ 16) : (s.keySizeError len).Inv :=
  { h with failedLength := fun _ => hlen }

/-- The invariant asks of BUF its list's canonical form, and every entry below BUF_BYTES. -/
theorem State.Inv.with_buf {m : Memory} (hwf : m.wf) (hin : ∀ c ∈ m, c.1 < s.params.bufBytes) :
    ({ s with buf := m } : State).Inv :=
  { h with
    bufCanonical := hwf
    bufInside := hin }

/-- 43_context_contract.md R193: a block stored inside BUF. -/
theorem State.Inv.putBlock {a : Nat} (ha : a + 16 ≤ s.params.bufBytes) (x : Block) :
    ({ s with buf := s.buf.putBlock a x } : State).Inv := by
  refine h.with_buf (wf_putBlock h.bufCanonical a x) fun c hc => ?_
  rcases mem_putBlock hc with ⟨-, hlt⟩ | hold
  · exact Nat.lt_of_lt_of_le hlt ha
  · exact h.bufInside c hold

/-- 43_context_contract.md R193: a host word stored inside BUF. -/
theorem State.Inv.putWord {a : Nat} (ha : a + 4 ≤ s.params.bufBytes) (v : Word) :
    ({ s with buf := s.buf.putWord a v } : State).Inv := by
  refine h.with_buf (wf_putWord h.bufCanonical a v) fun c hc => ?_
  rcases mem_putWord hc with ⟨-, hlt⟩ | hold
  · exact Nat.lt_of_lt_of_le hlt ha
  · exact h.bufInside c hold

/-- 70_reset_and_hazards.md R241: a reset gives the reset state's registers, and leaves BUF. -/
theorem State.Inv.resetEngine : s.resetEngine.Inv :=
  { resetWith_inv s.params with
    bufCanonical := h.bufCanonical
    bufInside := h.bufInside }

/-! ## Every step keeps the invariant -/

theorem State.Inv.exec {i : Instr} {t : State} (he : exec i s = .next t) : t.Inv := by
  rcases exec_cases i s with ⟨w, he'⟩ | ⟨-, mk, he'⟩ | ⟨r, -, hlen, he'⟩ | ⟨d, r, x, -, ha, he'⟩ | ⟨c, -, -, he'⟩ <;>
    cases he'.symm.trans he
  · exact (h.with_unread_fields w s.pend s.events s.replies s.draws).complete
  · exact (h.setContext mk).complete
  · exact (h.keySizeError hlen).complete
  · exact (h.putBlock ha x).complete
  · exact h.raiseFault c s.pend

theorem State.Inv.engineStep {t : State} (he : engineStep s = .next t) : t.Inv := by
  unfold Machine.engineStep at he
  split at he
  · cases he
    exact h.raiseFault .illegal s.pend
  · exact h.exec he

theorem State.Inv.hostWrite {t : State} {off : BitVec 16} {v : Word} (h4 : off.toNat % 4 = 0)
    (he : s.hostWrite off v = .ok t) : t.Inv := by
  rcases hostWrite_cases s v h4 with
      ⟨-, -, he'⟩ | he' | ⟨-, -, he'⟩ | ⟨hf, -, he'⟩ | ⟨-, -, r, he'⟩ | ⟨-, -, a, ha, he'⟩ <;>
    cases he'.symm.trans he
  · exact h.resetEngine
  · exact h
  · exact h.raiseFault .busyWrite (off.setWidth 32)
  · exact h.acceptCommand hf v
  · exact h.with_unread_fields _ s.pend s.events s.replies s.draws
  · exact h.putWord ha v

theorem State.Inv.takeAction {a : Action} {t : State} (he : takeAction a s = .next t) : t.Inv := by
  cases ha : a.expressible with
  | false =>
    obtain ⟨off, he'⟩ := takeAction_inexpressible a s ha
    cases he'.symm.trans he
  | true =>
    rcases takeAction_cases a s ha with ⟨-, he'⟩ | ⟨off, v, -, he'⟩ | ⟨off, v, u, -, h4, hw, he'⟩ <;>
      cases he'.symm.trans he
    · exact h.resetEngine
    · exact h.with_unread_fields s.w s.pend s.events _ _
    · exact h.hostWrite h4 hw

end

/-- Settles O56, by the three kinds of step: the engine's, the outside world's next action, and waiting. -/
theorem stepKeepsInvariant : Obligations.StepKeepsInvariant := by
  intro s t hinv h
  rcases step_cases s with ⟨-, he⟩ | ⟨-, e, rest, -, he⟩ | ⟨-, -, -, he⟩
  · exact hinv.engineStep (he.symm.trans h)
  · exact (hinv.with_unread_fields s.w s.pend rest s.replies s.draws).takeAction (he.symm.trans h)
  · cases he.symm.trans h
    exact hinv

end Sys2Proof.Machine
end

section
/-! PROOFS. What the statements about one command share: the word of a command (30_encoding.md R91 to R95, R103), and the
words of an opcode that R98 makes illegal. -/

namespace Sys2Proof.Machine

/-- 30_encoding.md R103: a command and its encoded word belong together. -/
theorem encodedAs_encode (i : Instr) : EncodedAs i (encode i) := by
  refine fun c => ⟨fun h => (encodeOfDecode c i h).symm, ?_⟩
  rintro rfl
  exact decodeOfEncode i

/-- 30_encoding.md R98: a word is illegal when a bit that its opcode's format wants 0 is 1. -/
theorem illegalWord_of_format {c : Word} {op : BitVec 8} {f : Format} (hop : opField c = op) (hf : formatOf op = some f)
    (hz : f.zerosHold c = false) : IllegalWord c := by
  subst hop
  rw [illegalWord_iff, hf]
  rintro _ ⟨⟩
  exact hz

end Sys2Proof.Machine
end

section
/-! PROOFS. The linear layers L and Lk (40_primitives.md R122, R123, R126). -/

namespace Sys2Proof.Machine.Cipher

/-- L with the library's rotations. -/
theorem L_eq_rotateLeft (x : Word) :
    L x = x ^^^ x.rotateLeft 2 ^^^ x.rotateLeft 10 ^^^ x.rotateLeft 18 ^^^ x.rotateLeft 24 := by
  simp [L, rotl32_eq_rotateLeft]

/-- Lk with the library's rotations. -/
theorem Lk_eq_rotateLeft (x : Word) : Lk x = x ^^^ x.rotateLeft 13 ^^^ x.rotateLeft 23 := by
  simp [Lk, rotl32_eq_rotateLeft]

theorem L_xor (a b : Word) : L (a ^^^ b) = L a ^^^ L b := by
  simp only [L, rotl32_xor]
  ac_rfl

theorem Lk_xor (a b : Word) : Lk (a ^^^ b) = Lk a ^^^ Lk b := by
  simp only [Lk, rotl32_xor]
  ac_rfl

end Sys2Proof.Machine.Cipher

namespace Sys2Proof.Machine

/-- Settles O22: linearity comes from that of the rotations; the five fixed words are evaluated. -/
theorem linearLayersAreLinearAndDistinct : Obligations.LinearLayersAreLinearAndDistinct :=
  ⟨fun a b => ⟨Cipher.L_xor a b, Cipher.Lk_xor a b⟩, by decide, by decide, by decide, by decide, by decide, by decide⟩

end Sys2Proof.Machine
end

section
/-! PROOFS. The S-box's algebraic construction (40_primitives.md R120): its two maps, A and the inversion, are one-to-one,
and so the table, which equals their composition, is a permutation. -/

namespace Sys2Proof.Machine

/-! ## The linear map A -/

/-- A is an XOR of rotations, one for each bit of 0xA7. -/
theorem affineMap_eq_rotations (x : Byte) :
    affineMap x = x ^^^ x.rotateLeft 1 ^^^ x.rotateLeft 3 ^^^ x.rotateLeft 6 ^^^ x.rotateLeft 7 := by
  revert x; decide +kernel

/-- The inverse of A, an XOR of three rotations. -/
def affineInverse (x : Byte) : Byte :=
  x ^^^ x.rotateLeft 2 ^^^ x.rotateLeft 7

@[simp] theorem affineInverse_affineMap (x : Byte) : affineInverse (affineMap x) = x := by
  rw [affineMap_eq_rotations]
  revert x; decide +kernel

@[simp] theorem affineMap_affineInverse (x : Byte) : affineMap (affineInverse x) = x := by
  rw [affineMap_eq_rotations]
  revert x; decide +kernel

theorem affineMap_injective : Function.Injective affineMap :=
  Function.LeftInverse.injective affineInverse_affineMap

/-! ## The inversion I -/

/-- What the table does to a byte between the two uses of A: the inversion I of R120 (`gfMul_fieldInverse`). -/
def fieldInverse (b : Byte) : Byte :=
  affineInverse (Cipher.S (affineInverse (b ^^^ 0xD3)) ^^^ 0xD3)

/-- The table, taken apart into A, the inversion and A. -/
theorem S_eq_construction (x : Byte) : Cipher.S x = affineMap (fieldInverse (affineMap x ^^^ 0xD3)) ^^^ 0xD3 := by
  simp [fieldInverse]

theorem fieldInverse_zero : fieldInverse 0 = 0 := by decide +kernel

/-- The table is that of inversion modulo 0x1F5: at every nonzero byte, the product with the inverse is 1. -/
theorem gfMul_fieldInverse (b : Byte) : b ≠ 0 → gfMul b (fieldInverse b) 8 = 1 := by
  revert b; decide +kernel

theorem fieldInverse_fieldInverse (b : Byte) : fieldInverse (fieldInverse b) = b := by
  revert b; decide +kernel

theorem fieldInverse_injective : Function.Injective fieldInverse :=
  Function.LeftInverse.injective fieldInverse_fieldInverse

/-! ## The table -/

theorem S_injective : Function.Injective Cipher.S := by
  intro x y h
  rw [S_eq_construction, S_eq_construction, BitVec.xor_left_inj] at h
  have hinv := fieldInverse_injective (affineMap_injective h)
  rw [BitVec.xor_left_inj] at hinv
  exact affineMap_injective hinv

/-- Settles O21: a one-to-one map of the 256 bytes is a bijection; the y of the construction is `fieldInverse`. -/
theorem sboxTableIsConstruction : Obligations.SboxTableIsConstruction := by
  refine ⟨Finite.injective_iff_bijective.1 S_injective, fun x => ?_⟩
  refine ⟨fieldInverse (affineMap x ^^^ 0xD3), fun hzero => ?_, gfMul_fieldInverse _, S_eq_construction x⟩
  rw [hzero, fieldInverse_zero]

end Sys2Proof.Machine
end

section
/-! PROOFS. The substitution-permutation commands (40_primitives.md R127 to R133): their words, their illegal words, their
results and their frames. -/

namespace Sys2Proof.Machine

/-- What R127 to R132 say alike of the six commands of format R2: the encoding, the illegal words, and one register
written. -/
theorem r2Command {i : Instr} {op : BitVec 8} {wd ws : Reg} {v : Word} {s : State} (hf : formatOf op = some .r2)
    (henc : encode i = fieldsWord op (regField wd) (regField ws) 0#4 0#12)
    (hexec : exec i s = .next (s.writeW wd v).complete) :
    EncodedAs i (op ++ regField wd ++ regField ws ++ 0x0000#16) ∧
    (∀ c : Word, opField c = op → bits c 15 0 ≠ 0 → IllegalWord c) ∧
    ∃ t, exec i s = .next t ∧ RegisterWritten s t wd v := by
  refine ⟨?word, fun c hop hz => ?illegal, _, hexec, registerWritten_writeW s wd v⟩
  case word =>
    rw [append_zero16, ← henc]
    exact encodedAs_encode i
  case illegal => exact illegalWord_of_format hop hf (beq_eq_false_iff_ne.2 hz)

/-- A byte with zeros above (00_scope.md R10). -/
theorem setWidth_byte (x : Byte) : x.setWidth 32 = 0#24 ++ x :=
  BitVec.setWidth_eq_append (by decide)

/-- Settles O14: a format R2 command whose value is S of the low byte with zeros above. -/
theorem sboxCommand : Obligations.SboxCommand := fun wd ws s =>
  r2Command rfl rfl (by rw [exec_sbox, setWidth_byte])

/-- Settles O15: a format R2 command, its value tau written out. -/
theorem tauCommand : Obligations.TauCommand := fun wd ws s =>
  r2Command rfl rfl (exec_tau s wd ws)

/-- Settles O16: a format R2 command, its value L in the library's rotations. -/
theorem lencCommand : Obligations.LencCommand := fun wd ws s =>
  r2Command rfl rfl (by rw [exec_lenc, Cipher.L_eq_rotateLeft])

/-- Settles O17: a format R2 command, its value Lk in the library's rotations. -/
theorem lkeyCommand : Obligations.LkeyCommand := fun wd ws s =>
  r2Command rfl rfl (by rw [exec_lkey, Cipher.Lk_eq_rotateLeft])

/-- Settles O18: a format R2 command, its value T, that is L of tau. -/
theorem tencCommand : Obligations.TencCommand := fun wd ws s =>
  r2Command rfl rfl (exec_tenc s wd ws)

/-- Settles O19: a format R2 command, its value Tk, that is Lk of tau. -/
theorem tkeyCommand : Obligations.TkeyCommand := fun wd ws s =>
  r2Command rfl rfl (exec_tkey s wd ws)

/-- Settles O20: its unused bits are those of format R3, its word is the encoder's, and one register is written. -/
theorem xorCommand : Obligations.XorCommand := by
  refine fun wd ws1 ws2 s => ⟨encodedAs_encode (.xor wd ws1 ws2), fun c hop hz => ?illegal, _, exec_xor s wd ws1 ws2,
    registerWritten_writeW s wd _⟩
  case illegal => exact illegalWord_of_format (f := .r3) hop rfl (beq_eq_false_iff_ne.2 hz)

end Sys2Proof.Machine
end

section
/-! PROOFS. The reserved bits of formats Q, QI and QS, range by range as the commands' rules list them (30_encoding.md R92 to
R94; 41_key_schedule.md R154 to R156). -/

namespace Sys2Proof

section
variable {c : Word}

theorem zerosHold_q_eq_false (h : bits c 21 20 ≠ 0 ∨ bits c 19 0 ≠ 0) : Format.zerosHold .q c = false := by
  refine beq_eq_false_iff_ne.2 fun hz => ?_
  exact h.elim (· (subrange_eq_zero hz)) (· (subrange_eq_zero hz))

theorem zerosHold_qi_eq_false (h : bits c 21 20 ≠ 0 ∨ bits c 19 12 ≠ 0 ∨ bits c 11 5 ≠ 0) :
    Format.zerosHold .qi c = false := by
  refine Bool.and_eq_false_imp.2 fun hd => beq_eq_false_iff_ne.2 ?_
  have hz : bits c 21 12 = 0 := eq_of_beq hd
  exact (h.resolve_left (· (subrange_eq_zero hz))).resolve_left (· (subrange_eq_zero hz))

theorem zerosHold_qs_eq_false (h : bits c 23 20 ≠ 0 ∨ bits c 17 16 ≠ 0 ∨ bits c 15 0 ≠ 0) :
    Format.zerosHold .qs c = false := by
  refine Bool.and_eq_false_imp.2 fun hd => beq_eq_false_iff_ne.2 fun hz => ?_
  exact (h.resolve_left (· (eq_of_beq hd))).elim (· (subrange_eq_zero hz)) (· (subrange_eq_zero hz))

end

end Sys2Proof
end

section
/-! PROOFS. The key schedule (41_key_schedule.md R150 to R156): the recurrence behind expandKey, and the commands FKX, KRND
and KEYEXP. -/

namespace Sys2Proof.Machine.Cipher

/-! ## The recurrence (R152) -/

/-- The window (K[n], K[n+1], K[n+2], K[n+3]) of R152 after n rounds with the given constants, from window k. -/
def keyWindow (cks : List Word) (k : Block) : Nat → Block
  | 0 => k
  | n + 1 => keyRound (keyWindow cks k n) (cks.getD n 0)

theorem keyWindow_cons_succ (ck : Word) (cks : List Word) (k : Block) (n : Nat) :
    keyWindow (ck :: cks) k (n + 1) = keyWindow cks (keyRound k ck) n := by
  induction n with
  | zero => rfl
  | succ n ih =>
    rw [keyWindow, ih]
    rfl

/-- The subkey of round n is the last word of the window after it. -/
theorem getElem_subkeys {cks : List Word} {k : Block} {n : Nat} (h : n < (subkeys k cks).length) :
    (subkeys k cks)[n] = (keyWindow cks k (n + 1)).x3 := by
  induction cks generalizing k n with
  | nil => cases h
  | cons ck cks ih =>
    cases n with
    | zero => rfl
    | succ n =>
      rw [keyWindow_cons_succ]
      exact ih _

theorem getElem_expandKey (mk : Block) (i : RoundIndex) :
    (expandKey mk)[i] = (keyWindow ckTable (whiten mk) (i.val + 1)).x3 :=
  getElem_subkeys _

/-- R151: the table of CK follows its rule. -/
theorem CK_eq_ckBytes (i : RoundIndex) :
    CK i = ckByte i.val 0 ++ ckByte i.val 1 ++ ckByte i.val 2 ++ ckByte i.val 3 := by
  revert i; decide

end Sys2Proof.Machine.Cipher

namespace Sys2Proof.Machine

/-- Settles O26: K[n] is the first word of the window after n rounds; the recurrence is then the rule of one round. -/
theorem keyScheduleRecurrence : Obligations.KeyScheduleRecurrence := fun mk =>
  ⟨fun n => (Cipher.keyWindow Cipher.ckTable (Cipher.whiten mk) n).x0, rfl, rfl, rfl, rfl,
    fun i => ⟨rfl, Cipher.getElem_expandKey mk i, Cipher.CK_eq_ckBytes i⟩⟩

/-! ## FKX, then KRND with the indices in order (R155's corner case) -/

/-- FKX and then the first n KRNDs leave in the quartet the window after n rounds, and do not touch the context. -/
theorem execAll_fkx_krnds (qd : Quartet) (s : State) {n : Nat} (hn : n ≤ 32) :
    ∃ t, execAll (.fkx qd :: ((List.finRange 32).take n).map (Instr.krnd qd)) s = .next t ∧
      t.readQ qd = Cipher.keyWindow Cipher.ckTable (Cipher.whiten (s.readQ qd)) n ∧ SameContext s t := by
  induction n with
  | zero => exact ⟨_, execAll_cons (exec_fkx s qd), by simp [Cipher.keyWindow], ⟨rfl, rfl⟩⟩
  | succ n ih =>
    obtain ⟨t, hrun, hwindow, hcontext⟩ := ih (by omega)
    have htake : (List.finRange 32).take (n + 1) = (List.finRange 32).take n ++ [⟨n, hn⟩] := by
      rw [List.take_succ_eq_append_getElem (by simpa using hn), List.getElem_finRange]
      rfl
    rw [htake, List.map_append, ← List.cons_append, execAll_append hrun]
    refine ⟨_, execAll_cons (exec_krnd t qd ⟨n, hn⟩), ?window, ⟨hcontext.rk, hcontext.kv⟩⟩
    case window =>
      rw [complete_readQ, readQ_writeQ_same, hwindow]
      rfl

/-- Settles O27: after n + 1 rounds the last word of the quartet's window is subkey n. -/
theorem krndSequenceGivesSubkeys : Obligations.KrndSequenceGivesSubkeys := by
  intro qd n s
  obtain ⟨t, hrun, hwindow, hcontext⟩ := execAll_fkx_krnds qd s n.isLt
  refine ⟨t, hrun, ?_, hcontext⟩
  rw [Cipher.getElem_expandKey, ← hwindow]
  rfl

/-! ## The three commands -/

/-- Settles O23: a format Q command that writes the whitened quartet; whitening is an involution. -/
theorem fkxCommand : Obligations.FkxCommand := by
  refine fun qd s => ⟨?word, fun c hop h => illegalWord_of_format hop rfl (zerosHold_q_eq_false h), _, _, exec_fkx s qd,
    quartetWritten_writeQ s qd _, exec_fkx _ qd, by simp, fun hzero => ?fromZero⟩
  case word =>
    rw [append_zero20]
    exact encodedAs_encode (.fkx qd)
  case fromZero => simp [hzero, Cipher.whiten, Cipher.FK]

/-- Settles O24: a format QI command that writes the quartet after one round of the key schedule. -/
theorem krndCommand : Obligations.KrndCommand := by
  refine fun qd i s => ⟨?word, fun c hop h => illegalWord_of_format hop rfl (zerosHold_qi_eq_false h), _, exec_krnd s qd i,
    quartetWritten_writeQ s qd _⟩
  case word =>
    rw [append_index]
    exact encodedAs_encode (.krnd qd i)

/-- Settles O25: a format QS command that sets the context to the schedule of the quartet. -/
theorem keyexpCommand : Obligations.KeyexpCommand := by
  refine fun qs s => ⟨?word, fun c hop h => illegalWord_of_format hop rfl (zerosHold_qs_eq_false h), _, exec_keyexp s qs,
    contextSet_setContext s _⟩
  case word =>
    rw [append_zero16]
    exact encodedAs_encode (.keyexp qs)

end Sys2Proof.Machine
end

section
/-! PROOFS. The reserved bits of formats QR and QQ, range by range as the commands' rules list them (30_encoding.md R92, R93;
42_block_transform.md R173, R175, R176). -/

namespace Sys2Proof

section
variable {c : Word}

theorem zerosHold_qr_eq_false (h : bits c 21 20 ≠ 0 ∨ bits c 19 16 ≠ 0 ∨ bits c 11 0 ≠ 0) :
    Format.zerosHold .qr c = false := by
  refine Bool.and_eq_false_imp.2 fun hd => beq_eq_false_iff_ne.2 ?_
  have hz : bits c 21 16 = 0 := eq_of_beq hd
  exact (h.resolve_left (· (subrange_eq_zero hz))).resolve_left (· (subrange_eq_zero hz))

theorem zerosHold_qq_eq_false (h : bits c 21 20 ≠ 0 ∨ bits c 17 16 ≠ 0 ∨ bits c 15 0 ≠ 0) :
    Format.zerosHold .qq c = false := by
  refine Bool.and_eq_false_imp.2 fun hd => beq_eq_false_iff_ne.2 fun hz => ?_
  exact (h.resolve_left (· (eq_of_beq hd))).elim (· (subrange_eq_zero hz)) (· (subrange_eq_zero hz))

end

end Sys2Proof
end

section
/-! PROOFS. The block transform (42_block_transform.md R170 to R172): its recurrence, the two views of RK, and that each view
undoes the other. -/

namespace Sys2Proof.Machine.Cipher

/-! ## The recurrence (R170) -/

/-- The window (X[n], X[n+1], X[n+2], X[n+3]) of R170 after n rounds with the given subkeys, from block x. -/
def encWindow (sk : List Word) (x : Block) : Nat → Block
  | 0 => x
  | n + 1 => encRound (encWindow sk x n) (sk.getD n 0)

theorem foldl_encRound_take {sk : List Word} (x : Block) {n : Nat} (hn : n ≤ sk.length) :
    (sk.take n).foldl encRound x = encWindow sk x n := by
  induction n with
  | zero => rfl
  | succ n ih =>
    rw [List.take_succ_eq_append_getElem hn, List.foldl_append, ih (Nat.le_of_succ_le hn), encWindow,
      List.getD_eq_getElem _ _ hn]
    rfl

/-- transform reverses the words of the window after its last round. -/
theorem transform_eq_encWindow (sk : List Word) (x : Block) :
    transform sk x = reverseWords (encWindow sk x sk.length) := by
  rw [transform, ← foldl_encRound_take x (Nat.le_refl _), List.take_length]

/-! ## Opposite orders of the subkeys undo each other (R172) -/

/-- From the reversed last window, the rounds in the opposite order lead back to the reversed block. -/
theorem foldl_encRound_reverse_reverseWords (sk : List Word) (x : Block) :
    sk.reverse.foldl encRound (reverseWords (sk.foldl encRound x)) = reverseWords x := by
  induction sk generalizing x with
  | nil => rfl
  | cons k ks ih =>
    rw [List.reverse_cons, List.foldl_append, List.foldl_cons (l := ks), ih]
    exact encRound_reverseWords_encRound x k

theorem transform_reverse_transform (sk : List Word) (x : Block) : transform sk.reverse (transform sk x) = x := by
  rw [transform, transform, foldl_encRound_reverse_reverseWords, reverseWords_reverseWords]

@[simp] theorem decryptBlock_encryptBlock (rk : Vector Word 32) (x : Block) :
    decryptBlock rk (encryptBlock rk x) = x :=
  transform_reverse_transform rk.toList x

@[simp] theorem encryptBlock_decryptBlock (rk : Vector Word 32) (x : Block) :
    encryptBlock rk (decryptBlock rk x) = x := by
  have h := transform_reverse_transform rk.toList.reverse x
  rwa [List.reverse_reverse] at h

/-! ## The two views of RK (R171) -/

theorem toList_eq_ofFn (rk : Vector Word 32) : rk.toList = List.ofFn fun i : RoundIndex => rk[i] :=
  List.ext_getElem (by simp) fun i _ _ => by simp only [Vector.getElem_toList, List.getElem_ofFn, Fin.getElem_fin]

theorem reverse_toList_eq_ofFn (rk : Vector Word 32) :
    rk.toList.reverse = List.ofFn fun i : RoundIndex => rk[i.rev] :=
  List.ext_getElem (by simp) fun i _ _ => by
    simp only [List.getElem_reverse, Vector.getElem_toList, Vector.length_toList, List.getElem_ofFn, Fin.getElem_fin,
      Fin.val_rev, Nat.sub_sub, Nat.add_comm]

end Sys2Proof.Machine.Cipher

namespace Sys2Proof.Machine

/-- Settles O32: X[n] is the first word of the window after n rounds; the recurrence is then the rule of one round. -/
theorem transformRecurrence : Obligations.TransformRecurrence := by
  refine fun sk x => ⟨fun n => (Cipher.encWindow sk.toList x n).x0, rfl, rfl, rfl, rfl, fun i => ?round, ?output⟩
  case round =>
    have hsk : sk.toList.getD i.val 0 = sk[i] := by simp
    rw [← hsk]
    rfl
  case output =>
    rw [Cipher.transform_eq_encWindow, Vector.length_toList]
    rfl

/-- Settles O33: each view of RK is the list of subkeys the rule names. -/
theorem decryptionReversesSubkeyOrder : Obligations.DecryptionReversesSubkeyOrder := fun rk x =>
  ⟨by rw [Cipher.encryptBlock, Cipher.toList_eq_ofFn], by rw [Cipher.decryptBlock, Cipher.reverse_toList_eq_ofFn]⟩

/-- Settles O34: both are `transform` after `transform` with the subkeys in the opposite order. -/
theorem decryptionInvertsEncryption : Obligations.DecryptionInvertsEncryption := fun rk x =>
  ⟨Cipher.decryptBlock_encryptBlock rk x, Cipher.encryptBlock_decryptBlock rk x⟩

end Sys2Proof.Machine
end

section
/-! PROOFS. The block-transform commands RND, REV, ENC and DEC (42_block_transform.md R173 to R176), and what they do one after
another. -/

namespace Sys2Proof.Machine

/-! ## A host's loop of RNDs, then REV (R173's corner case) -/

/-- A register outside a quartet is none of its words (10_state.md R22). -/
theorem readQ_writeW_other (s : State) {q : Quartet} {r : Reg} (v : Word) (h : r.val / 4 ≠ q.val) :
    (s.writeW r v).readQ q = s.readQ q := by
  have hne : ∀ j, quartetReg q j ≠ r := fun j e => h (by rw [← e, quartetReg_div])
  simp [State.readQ, readW_writeW, hne]

/-- RNDs with their subkeys in a register outside the quartet run one round per subkey on it. -/
theorem rndAll_outside {qd : Quartet} {ws : Reg} (h : ws.val / 4 ≠ qd.val) (ks : List Word) (s : State) :
    ∃ t, rndAll qd ws ks s = .next t ∧ t.readQ qd = ks.foldl Cipher.encRound (s.readQ qd) := by
  induction ks generalizing s with
  | nil => exact ⟨s, rfl, rfl⟩
  | cons k ks ih =>
    rw [rndAll_cons, readW_writeW_same, readQ_writeW_other s k h, List.foldl_cons]
    obtain ⟨t, hrun, hread⟩ := ih _
    exact ⟨t, hrun, by rw [hread, complete_readQ, readQ_writeQ_same]⟩

/-- The final REV is the R transform that ends `transform`. -/
theorem rndAll_rev_transform {qd : Quartet} {ws : Reg} (h : ws.val / 4 ≠ qd.val) (ks : List Word) (s : State) :
    ∃ t u, rndAll qd ws ks s = .next t ∧ exec (.rev qd) t = .next u ∧
      u.readQ qd = Cipher.transform ks (s.readQ qd) := by
  obtain ⟨t, hrun, hread⟩ := rndAll_outside h ks s
  refine ⟨t, _, hrun, exec_rev t qd, ?_⟩
  rw [complete_readQ, readQ_writeQ_same, hread, Cipher.transform]

/-- Settles O36, by `rndAll_rev_transform` for each view of RK. -/
theorem roundsThenRevAreEncAndDec : Obligations.RoundsThenRevAreEncAndDec := fun _ _ s h =>
  ⟨rndAll_rev_transform h s.rk.toList s, rndAll_rev_transform h s.rk.toList.reverse s⟩

/-! ## The four commands -/

/-- Settles O28: a format QR command that writes the quartet after one encryption round. -/
theorem rndCommand : Obligations.RndCommand := fun qd ws s =>
  ⟨encodedAs_encode (.rnd qd ws), fun _ hop h => illegalWord_of_format hop rfl (zerosHold_qr_eq_false h), _,
    exec_rnd s qd ws, quartetWritten_writeQ s qd _⟩

/-- Settles O29: a format Q command that writes the reversed quartet; reversing is an involution. -/
theorem revCommand : Obligations.RevCommand := by
  refine fun qd s => ⟨?word, fun c hop h => illegalWord_of_format hop rfl (zerosHold_q_eq_false h), _, _, exec_rev s qd,
    quartetWritten_writeQ s qd _, exec_rev _ qd, by simp⟩
  case word =>
    rw [append_zero20]
    exact encodedAs_encode (.rev qd)

/-- What R175 and R176 say alike of the encoding of ENC and DEC, and of their illegal words. -/
theorem qqEncoding {i : Instr} {op : BitVec 8} {qd qs : Quartet} (hf : formatOf op = some .qq)
    (henc : encode i = fieldsWord op (quartetField qd) (quartetField qs) 0#4 0#12) :
    EncodedAs i (op ++ quartetField qd ++ quartetField qs ++ 0x0000#16) ∧
    ∀ c : Word, opField c = op → (bits c 21 20 ≠ 0 ∨ bits c 17 16 ≠ 0 ∨ bits c 15 0 ≠ 0) → IllegalWord c := by
  refine ⟨?word, fun c hop h => illegalWord_of_format hop hf (zerosHold_qq_eq_false h)⟩
  case word =>
    rw [append_zero16, ← henc]
    exact encodedAs_encode i

/-- Settles O30: a format QQ command that writes the encrypted block, or takes NOKEY. -/
theorem encCommand : Obligations.EncCommand := by
  intro qd qs s
  obtain ⟨hword, hillegal⟩ := qqEncoding (i := .enc qd qs) rfl rfl
  exact ⟨hword, hillegal, fun hkv => ⟨_, exec_enc_key hkv qd qs, quartetWritten_writeQ s qd _⟩,
    fun hkv => ⟨_, exec_enc_noKey hkv qd qs, faultTaken_raiseFault s .noKey s.pend⟩⟩

/-- Settles O31: a format QQ command that writes the decrypted block, or takes NOKEY; decryption undoes encryption. -/
theorem decCommand : Obligations.DecCommand := by
  intro qd qs s
  obtain ⟨hword, hillegal⟩ := qqEncoding (i := .dec qd qs) rfl rfl
  refine ⟨hword, hillegal, fun hkv => ⟨_, exec_dec_key hkv qd qs, quartetWritten_writeQ s qd _, fun x hx => ?restored⟩,
    fun hkv => ⟨_, exec_dec_noKey hkv qd qs, faultTaken_raiseFault s .noKey s.pend⟩⟩
  case restored => simp [hx]

/-! ## KEYEXP, ENC, DEC (R172) -/

theorem SameW.readQ {s t : State} (h : SameW s t) (q : Quartet) : t.readQ q = s.readQ q := by
  simp only [State.readQ, h _]

/-- Settles O35, from the three commands' statements: KEYEXP sets KV, ENC leaves the context, and so DEC restores the
block. -/
theorem keyexpEncDecRestoresBlock : Obligations.KeyexpEncDecRestoresBlock := by
  intro qk qd qs qe s
  obtain ⟨-, -, t, hkeyexp, hset⟩ := keyexpCommand qk s
  obtain ⟨-, -, henc, -⟩ := encCommand qd qs t
  obtain ⟨u, henc, hcipher⟩ := henc hset.kv
  obtain ⟨hrk, hkv⟩ := hcipher.frame.context
  obtain ⟨-, -, hdec, -⟩ := decCommand qe qd u
  obtain ⟨v, hdec, hplain, hrestored⟩ := hdec (hkv.trans hset.kv)
  refine ⟨v, ?run, ?block, ?fault⟩
  case run => rw [execAll_cons hkeyexp, execAll_cons henc, execAll_cons hdec, execAll_nil]
  case block =>
    refine hrestored _ ?_
    rw [hcipher.result, hrk, hset.w.readQ]
  case fault => rw [hplain.frame.fault.fault, hcipher.frame.fault.fault, hset.fault.fault]

end Sys2Proof.Machine
end

section
/-! PROOFS. The reserved bits of formats D1 and D2, range by range as the commands' rules list them (30_encoding.md R92;
43_context_contract.md R192, R196, R197). -/

namespace Sys2Proof

section
variable {c : Word}

theorem zerosHold_d1_eq_false (h : bits c 23 20 ≠ 0 ∨ bits c 15 0 ≠ 0) : Format.zerosHold .d1 c = false :=
  Bool.and_eq_false_imp.2 fun hd => beq_eq_false_iff_ne.2 (h.resolve_left (· (eq_of_beq hd)))

theorem zerosHold_d2_eq_false (h : bits c 23 20 ≠ 0 ∨ bits c 11 0 ≠ 0) : Format.zerosHold .d2 c = false :=
  Bool.and_eq_false_imp.2 fun hd => beq_eq_false_iff_ne.2 (h.resolve_left (· (eq_of_beq hd)))

end

end Sys2Proof
end

section
/-! PROOFS. The cipher context's commands NOP, KEYEXPM, ENCM and DECM (43_context_contract.md R191, R192, R196 to R198),
what ENCM and DECM do one after the other, and what the four block commands' output depends on (R200). -/

namespace Sys2Proof.Machine

/-! ## NOP and KEYEXPM -/

/-- Settles O37: a format N command that only completes. -/
theorem nopCommand : Obligations.NopCommand := fun s =>
  ⟨encodedAs_encode .nop, fun _ hop hz => illegalWord_of_format hop rfl (beq_eq_false_iff_ne.2 hz), _, exec_nop s,
    fun _ => rfl, onlyWChanges_w s s.w⟩

/-- Settles O38: a format D1 command; each clause is the equation of its case, with the frame of the operation it names. -/
theorem keyexpmCommand : Obligations.KeyexpmCommand := by
  refine fun wk s => ⟨?word, fun c hop h => illegalWord_of_format hop rfl (zerosHold_d1_eq_false h), fun hlen => ?size,
    fun hlen hout => ?range, fun hlen hin => ?context⟩
  case word =>
    rw [append_zero16]
    exact encodedAs_encode (.keyexpm wk)
  case size =>
    have hne : (s.descriptor wk).len.toNat ≠ 16 := fun e => hlen (BitVec.eq_of_toNat_eq e)
    exact ⟨_, exec_keyexpm_size hne, keySizeErrorTaken_keySizeError s _⟩
  case range =>
    exact ⟨_, exec_keyexpm_range (congrArg BitVec.toNat hlen) hout, faultTaken_raiseFault s .range s.pend⟩
  case context =>
    refine ⟨_, exec_keyexpm_ok (congrArg BitVec.toNat hlen) hin, contextSet_setContext s _, fun qs hqs => ?_⟩
    exact ⟨_, exec_keyexp s qs, congrArg Cipher.expandKey hqs⟩

/-! ## ENCM and DECM -/

/-- What R196 and R197 say alike of the encoding of ENCM and DECM, and of their illegal words. -/
theorem d2Encoding {i : Instr} {op : BitVec 8} {wdst wsrc : Reg} (hf : formatOf op = some .d2)
    (henc : encode i = fieldsWord op 0#4 (regField wdst) (regField wsrc) 0#12) :
    EncodedAs i (op ++ 0x0#4 ++ regField wdst ++ regField wsrc ++ 0x000#12) ∧
    ∀ c : Word, opField c = op → (bits c 23 20 ≠ 0 ∨ bits c 11 0 ≠ 0) → IllegalWord c := by
  refine ⟨?word, fun c hop h => illegalWord_of_format hop hf (zerosHold_d2_eq_false h)⟩
  case word =>
    have hword := encodedAs_encode i
    rwa [henc] at hword

/-- R198: a check that fails is answered by its own fault, with FINFO the command word. -/
theorem bufferCall_faultTaken {s : State} {dst src : Descriptor} {c : FaultCause}
    (h : s.checkBlockCall dst src = some c) (f : Vector Word 32 → Block → Block) :
    ∃ t, s.bufferCall f dst src = .next t ∧ FaultTaken s t c.code s.pend :=
  ⟨s.raiseFault c s.pend, by simp only [State.bufferCall, h], faultTaken_raiseFault s c s.pend⟩

/-- What R196 and R197 say alike of the effect of ENCM and DECM: the block stored when every check holds, else the fault of
the first that fails. -/
theorem bufferCall_effect (s : State) (f : Vector Word 32 → Block → Block) (dst src : Descriptor) :
    (BlockCallOk s dst src → ∃ t, s.bufferCall f dst src = .next t ∧
      BlockStored s t dst.off (f s.rk (s.bufBlock src.off))) ∧
    (¬BlockCallOk s dst src → ∃ t c, s.bufferCall f dst src = .next t ∧ s.checkBlockCall dst src = some c ∧
      FaultTaken s t c.code s.pend) := by
  rcases bufferCall_cases s f dst src with ⟨ok, h⟩ | ⟨notOk, c, hc, -⟩
  · exact ⟨fun _ => ⟨_, h, blockStored_putBlock s dst.off _⟩, fun notOk => absurd ok notOk⟩
  · obtain ⟨t, ht, hfault⟩ := bufferCall_faultTaken hc f
    exact ⟨fun ok => absurd ok notOk, fun _ => ⟨t, c, ht, hc, hfault⟩⟩

/-- Settles O39: a format D2 command that stores the encrypted block, or takes the fault of the first check that fails. -/
theorem encmCommand : Obligations.EncmCommand := by
  intro wdst wsrc s
  obtain ⟨hword, hillegal⟩ := d2Encoding (i := .encm wdst wsrc) rfl rfl
  exact ⟨hword, hillegal, bufferCall_effect s Cipher.encryptBlock _ _⟩

/-- Settles O40: a format D2 command that stores the decrypted block, or takes the fault of the first check that fails;
decryption undoes encryption. -/
theorem decmCommand : Obligations.DecmCommand := by
  intro wdst wsrc s
  obtain ⟨hword, hillegal⟩ := d2Encoding (i := .decm wdst wsrc) rfl rfl
  obtain ⟨hstored, hfault⟩ := bufferCall_effect s Cipher.decryptBlock (s.descriptor wdst) (s.descriptor wsrc)
  refine ⟨hword, hillegal, fun ok => ?success, hfault⟩
  case success =>
    obtain ⟨t, ht, hplain⟩ := hstored ok
    refine ⟨t, ht, hplain, fun x hx => ?_⟩
    rw [hplain.result, hx, Cipher.decryptBlock_encryptBlock]

/-! ## The checks in order (R198) -/

section
variable {s : State} {dst src : Descriptor}

theorem checkBlockCall_noKey (hkv : s.kv = false) : s.checkBlockCall dst src = some .noKey :=
  if_pos hkv

variable (hkv : s.kv = true)
include hkv

theorem checkBlockCall_srcSize (hslen : src.len.toNat < 16) : s.checkBlockCall dst src = some .bufSize := by
  simp [State.checkBlockCall, hkv, hslen]

/-- Both size checks have one cause, so whether the source's length passes does not matter here. -/
theorem checkBlockCall_dstSize (hdlen : dst.len.toNat < 16) : s.checkBlockCall dst src = some .bufSize := by
  simp [State.checkBlockCall, hkv, hdlen]

variable (hslen : 16 ≤ src.len.toNat) (hdlen : 16 ≤ dst.len.toNat)
include hslen hdlen

theorem checkBlockCall_srcRange (hsrc : s.params.bufBytes < src.off + src.len.toNat) :
    s.checkBlockCall dst src = some .range := by
  simp [State.checkBlockCall, State.inRange, hkv, Nat.not_lt.2 hslen, Nat.not_lt.2 hdlen, Nat.not_le.2 hsrc]

variable (hsrc : src.off + src.len.toNat ≤ s.params.bufBytes)
include hsrc

theorem checkBlockCall_dstRange (hdst : s.params.bufBytes < dst.off + dst.len.toNat) :
    s.checkBlockCall dst src = some .range := by
  simp [State.checkBlockCall, State.inRange, hkv, Nat.not_lt.2 hslen, Nat.not_lt.2 hdlen, hsrc, Nat.not_le.2 hdst]

theorem checkBlockCall_partialOverlap (hdst : dst.off + dst.len.toNat ≤ s.params.bufBytes)
    (hoverlap : inexactOverlap src.off dst.off = true) : s.checkBlockCall dst src = some .partialOverlap := by
  simp [State.checkBlockCall, State.inRange, hkv, Nat.not_lt.2 hslen, Nat.not_lt.2 hdlen, hsrc, hdst, hoverlap]

end

/-- Settles O41: each clause's failing check is the lemma above that names its cause. -/
theorem bufferChecksInOrder : Obligations.BufferChecksInOrder := by
  intro i wdst wsrc s hi slen soff dlen doff faults
  have fault {c : FaultCause} (h : s.checkBlockCall (s.descriptor wdst) (s.descriptor wsrc) = some c) :
      faults c.code := by
    rcases hi with rfl | rfl
    · exact bufferCall_faultTaken h Cipher.encryptBlock
    · exact bufferCall_faultTaken h Cipher.decryptBlock
  exact ⟨fun hkv => fault (checkBlockCall_noKey hkv),
    fun hkv hslen => fault (checkBlockCall_srcSize hkv hslen),
    fun hkv _ hdlen => fault (checkBlockCall_dstSize hkv hdlen),
    fun hkv hslen hdlen hsrc => fault (checkBlockCall_srcRange hkv hslen hdlen hsrc),
    fun hkv hslen hdlen hsrc hdst => fault (checkBlockCall_dstRange hkv hslen hdlen hsrc hdst),
    fun hkv hslen hdlen hsrc hdst hne hlt hgt => fault (checkBlockCall_partialOverlap hkv hslen hdlen hsrc hdst
      ((inexactOverlap_iff soff doff).2 ⟨hne, hlt, hgt⟩))⟩

/-! ## ENCM, then DECM of its destination (R197's corner case) -/

theorem SameW.descriptor {s t : State} (h : SameW s t) (r : Reg) : t.descriptor r = s.descriptor r :=
  congrArg descriptorOf (h r)

/-- R198: the checks read KV and BUF_BYTES of the state, and nothing else. -/
theorem BlockCallOk.of_eq {s t : State} {dst src : Descriptor} (h : BlockCallOk s dst src) (hkv : t.kv = s.kv)
    (hparams : t.params = s.params) : BlockCallOk t dst src :=
  { h with
    key := hkv.trans h.key
    srcRange := hparams ▸ h.srcRange
    dstRange := hparams ▸ h.dstRange }

/-- Settles O42, from the two commands' statements: ENCM leaves the context and the descriptors, and so DECM restores the
block. -/
theorem decmAfterEncmRestoresBytes : Obligations.DecmAfterEncmRestoresBytes := by
  intro wdst wsrc wback s okEncm okDecm
  obtain ⟨-, -, hencm, -⟩ := encmCommand wdst wsrc s
  obtain ⟨t, hencm, hcipher⟩ := hencm okEncm
  obtain ⟨hrk, hkv⟩ := hcipher.context
  have hdesc := hcipher.w.descriptor
  obtain ⟨-, -, hdecm, -⟩ := decmCommand wback wdst t
  obtain ⟨u, hdecm, -, hrestored⟩ := hdecm (by
    rw [hdesc, hdesc]
    exact okDecm.of_eq hkv hcipher.rest.params)
  rw [hdesc, hdesc, hrk] at hrestored
  exact ⟨u, by rw [execAll_cons hencm, execAll_cons hdecm, execAll_nil], hrestored _ hcipher.result⟩

/-! ## What the output of the block commands depends on (R200) -/

section
variable {s₁ s₂ : State} (f : Vector Word 32 → Block → Block) (hrk : s₁.rk = s₂.rk)
include hrk

theorem quartetCall_readQ_eq (hkv₁ : s₁.kv = true) (hkv₂ : s₂.kv = true) (qd₁ qd₂ : Quartet) {qs₁ qs₂ : Quartet}
    (hin : s₁.readQ qs₁ = s₂.readQ qs₂) :
    (s₁.quartetCall f qd₁ qs₁).readQ qd₁ = (s₂.quartetCall f qd₂ qs₂).readQ qd₂ := by
  simp [State.quartetCall, hkv₁, hkv₂, hrk, hin]

theorem bufferCall_bufBlock_eq {dst₁ src₁ dst₂ src₂ : Descriptor} (ok₁ : BlockCallOk s₁ dst₁ src₁)
    (ok₂ : BlockCallOk s₂ dst₂ src₂) (hin : s₁.bufBlock src₁.off = s₂.bufBlock src₂.off) :
    ∃ t₁ t₂, s₁.bufferCall f dst₁ src₁ = .next t₁ ∧ s₂.bufferCall f dst₂ src₂ = .next t₂ ∧
      t₁.bufBlock dst₁.off = t₂.bufBlock dst₂.off := by
  obtain ⟨t₁, ht₁, hstored₁⟩ := (bufferCall_effect s₁ f dst₁ src₁).1 ok₁
  obtain ⟨t₂, ht₂, hstored₂⟩ := (bufferCall_effect s₂ f dst₂ src₂).1 ok₂
  exact ⟨t₁, t₂, ht₁, ht₂, by rw [hstored₁.result, hstored₂.result, hrk, hin]⟩

end

/-- Settles O43: ENC and DEC are `quartetCall`, ENCM and DECM are `bufferCall`, of a function of RK and the input block. -/
theorem blockCommandsAreReferentiallyTransparent : Obligations.BlockCommandsAreReferentiallyTransparent := by
  intro s₁ s₂ hrk hkv₁ hkv₂
  refine ⟨fun qd₁ qs₁ qd₂ qs₂ hin => ?quartets, fun d₁ r₁ d₂ r₂ ok₁ ok₂ hin => ?buffers⟩
  case quartets =>
    exact ⟨⟨_, _, rfl, rfl, quartetCall_readQ_eq Cipher.encryptBlock hrk hkv₁ hkv₂ qd₁ qd₂ hin⟩,
      ⟨_, _, rfl, rfl, quartetCall_readQ_eq Cipher.decryptBlock hrk hkv₁ hkv₂ qd₁ qd₂ hin⟩⟩
  case buffers =>
    exact ⟨bufferCall_bufBlock_eq Cipher.encryptBlock hrk ok₁ ok₂ hin,
      bufferCall_bufBlock_eq Cipher.decryptBlock hrk ok₁ ok₂ hin⟩

end Sys2Proof.Machine
end

section
/-! PROOFS. Faults (60_exceptions.md): a command that faults makes the four writes of fault entry and no other (R212, R213),
and a fault holds until a reset (R215 to R217). -/

namespace Sys2Proof.Machine

/-! ## A command that faults -/

/-- 60_exceptions.md R213: a command leaves FAULT as it was, or it takes a fault for its own word and writes nothing else;
ILLEGAL and BUSYWR are no command's causes. -/
theorem exec_keeps_fault_or_takes_one {i : Instr} {s t : State} (h : exec i s = .next t) :
    t.fault = s.fault ∨ ∃ c : FaultCause, 2 ≤ c.code.toNat ∧ c.code.toNat ≤ 5 ∧ t = s.raiseFault c s.pend := by
  rcases exec_cases i s with ⟨w, he⟩ | ⟨-, mk, he⟩ | ⟨r, -, -, he⟩ | ⟨d, r, x, -, -, he⟩ | ⟨c, hlo, hhi, he⟩ <;>
    cases he.symm.trans h
  case inr.inr.inr.inr => exact .inr ⟨c, hlo, hhi, rfl⟩
  all_goals exact .inl rfl

/-- 60_exceptions.md R211, R213, 30_encoding.md R98: an engine step that sets FAULT is fault entry for the pending word, with
a cause other than BUSYWR. -/
theorem engineStep_takes_fault {s t : State} (h : engineStep s = .next t) (hs : s.fault = false) (ht : t.fault = true) :
    ∃ c : FaultCause, 1 ≤ c.code.toNat ∧ c.code.toNat ≤ 5 ∧ t = s.raiseFault c s.pend := by
  unfold engineStep at h
  split at h
  · cases h
    exact ⟨.illegal, by decide, by decide, rfl⟩
  · rcases exec_keeps_fault_or_takes_one h with hsame | ⟨c, hlo, hhi, rfl⟩
    · rw [hsame, hs] at ht
      cases ht
    · exact ⟨c, by omega, hhi, rfl⟩

/-- Settles O46: on the engine's turn the step is the engine's, and the fault it takes is fault entry with the frame of
`faultTaken_raiseFault`. -/
theorem faultingCommandWritesNothingElse : Obligations.FaultingCommandWritesNothingElse := by
  intro s t turn hs h ht
  rw [step_of_enginesTurn turn] at h
  obtain ⟨c, hlo, hhi, rfl⟩ := engineStep_takes_fault h hs ht
  exact ⟨hlo, hhi, faultTaken_raiseFault s c s.pend⟩

/-! ## While FAULT = 1 -/

theorem SameEngine.refl (s : State) : SameEngine s s :=
  ⟨fun _ => rfl, ⟨rfl, rfl⟩, ⟨rfl, rfl⟩, ⟨rfl, rfl, rfl⟩, fun _ => rfl, rfl, rfl, rfl⟩

/-- The events to come are the outside world's, and no state of the engine (10_state.md R20). -/
theorem SameEngine.of_with_events {s t : State} {events : List Event} (h : SameEngine { s with events := events } t) :
    SameEngine s t :=
  ⟨h.w, ⟨h.context.rk, h.context.kv⟩, ⟨h.keyError.kerr, h.keyError.errlen⟩,
    ⟨h.fault.fault, h.fault.fcode, h.fault.finfo⟩, h.buf, h.busy, h.pend, h.params⟩

/-- 60_exceptions.md R215: while FAULT = 1 a HostWrite that is no write of CTRL with SRST = 1 is ignored. -/
theorem hostWrite_ignored_while_faulted {s : State} {off : BitVec 16} {v : Word} (hf : s.fault = true)
    (hsrst : off = 0x0008 → v.getLsbD 0 = false) : s.hostWrite off v = .ok s := by
  by_cases h8 : off = 0x0008
  · have hv := hsrst h8
    subst h8
    rw [hostWrite_ctrl, hv, if_neg Bool.false_ne_true]
  · exact hostWrite_faulted v h8 hf

/-- 60_exceptions.md R215, R216: while FAULT = 1 an action of the outside world that is no reset, by the reset input or by a
write of CTRL, leaves the engine's state. -/
theorem takeAction_sameEngine_while_faulted {a : Action} {s t : State} (h : takeAction a s = .next t)
    (hf : s.fault = true) (hreset : a ≠ .reset) (hsrst : ∀ v, a = .write 0x0008 v → v.getLsbD 0 = false) :
    SameEngine s t := by
  cases ha : a.expressible with
  | false =>
    obtain ⟨off, he⟩ := takeAction_inexpressible a s ha
    cases he.symm.trans h
  | true =>
    rcases takeAction_cases a s ha with ⟨hr, -⟩ | ⟨off, v, -, he⟩ | ⟨off, v, u, hw, -, hu, he⟩
    · exact absurd hr hreset
    · cases he.symm.trans h
      exact sameEngine_replied s off v
    · cases he.symm.trans h
      have hignored : s.hostWrite off v = .ok s :=
        hostWrite_ignored_while_faulted hf fun h8 => hsrst v (h8 ▸ hw)
      cases hu.symm.trans hignored
      exact .refl s

/-- Settles O48, by the three kinds of step: with BUSY = 0 it is not the engine's; the next action is no reset; and waiting
changes nothing. -/
theorem faultHoldsUntilReset : Obligations.FaultHoldsUntilReset := by
  intro s t hf hb h hev
  rcases step_cases s with ⟨turn, -⟩ | ⟨-, e, rest, he, hstep⟩ | ⟨-, -, -, hstep⟩
  · cases hb.symm.trans turn.busy
  · obtain ⟨hreset, hsrst⟩ := hev e rest he
    exact (takeAction_sameEngine_while_faulted (hstep.symm.trans h) hf hreset hsrst).of_with_events
  · cases hstep.symm.trans h
    exact .refl s

end Sys2Proof.Machine
end

section
/-! PROOFS. Reset (70_reset_and_hazards.md R240, R241) and progress: a pending command ends (R251). -/

namespace Sys2Proof.Machine

/-! ## Reset -/

/-- Settles O53: the reset event is `resetEngine`, and so is what CTRL does with SRST = 1 (`hostWrite_ctrl`). -/
theorem resetClearsTheEngine : Obligations.ResetClearsTheEngine := fun s =>
  ⟨⟨s.resetEngine, rfl, resetTaken_resetEngine s⟩, takeAction_write rfl (hostWrite_ctrl s 1)⟩

/-! ## Progress -/

/-- 30_encoding.md R96, R98: an engine step ends the pending command, by completion or by a fault. -/
theorem engineStep_ends {s t : State} (h : engineStep s = .next t) : t.busy = false := by
  unfold engineStep at h
  split at h
  · cases h
    rfl
  · exact (exec_ends h).1

/-- The events to come are the outside world's: no HostWrite changes them (10_state.md R20). -/
theorem hostWrite_keeps_events {s t : State} {off : BitVec 16} {v : Word} (h4 : off.toNat % 4 = 0)
    (h : s.hostWrite off v = .ok t) : t.events = s.events := by
  rcases hostWrite_cases s v h4 with
      ⟨-, -, he⟩ | he | ⟨-, -, he⟩ | ⟨-, -, he⟩ | ⟨-, -, r, he⟩ | ⟨-, -, a, -, he⟩ <;>
    cases he.symm.trans h <;> rfl

/-- An action of the outside world leaves the events that come after it. -/
theorem takeAction_keeps_events {a : Action} {s t : State} (ha : a.expressible = true)
    (h : takeAction a s = .next t) : t.events = s.events := by
  rcases takeAction_cases a s ha with ⟨-, he⟩ | ⟨off, v, -, he⟩ | ⟨off, v, u, -, h4, hw, he⟩ <;>
    cases he.symm.trans h
  · exact resetEngine_events s
  · exact replied_events s off v
  · exact hostWrite_keeps_events h4 hw

/-- While a command is pending no step waits: it ends the command, or it takes the first of the events to come. -/
theorem step_ends_command_or_takes_event {s : State} (hb : s.busy = true)
    (hexp : ∀ e ∈ s.events, e.action.expressible = true) :
    ∃ t, step s = .next t ∧ (t.busy = false ∨ ∃ e, s.events = e :: t.events) := by
  rcases step_cases s with ⟨-, he⟩ | ⟨-, e, rest, hev, he⟩ | ⟨-, -, hidle, -⟩
  · obtain ⟨t, ht⟩ := engineStep_answers s
    exact ⟨t, he.trans ht, .inl (engineStep_ends ht)⟩
  · have ha : e.action.expressible = true := hexp e (hev ▸ List.mem_cons_self)
    obtain ⟨t, ht⟩ := takeAction_answers { s with events := rest } ha
    have hrest : t.events = rest := takeAction_keeps_events ha ht
    exact ⟨t, he.trans ht, .inr ⟨e, hrest ▸ hev⟩⟩
  · cases hb.symm.trans hidle

/-- A run whose first step answers goes on from the answer. -/
theorem run_succ_of_step {s t : State} (h : step s = .next t) (n : Nat) :
    Host.Core.run Sys2Proof.core (n + 1) s = Host.Core.run Sys2Proof.core n t := by
  have hcore : Sys2Proof.core.step s = .next t := h
  simp only [Host.Core.run, hcore]

/-- Settles O13, by induction on the events to come: each step ends the command or leaves one event fewer
(`step_ends_command_or_takes_event`). -/
theorem pendingCommandEnds : Obligations.PendingCommandEnds := by
  intro s hb hexp
  induction hev : s.events generalizing s with
  | nil =>
    obtain ⟨t, ht, hend | ⟨e, he⟩⟩ := step_ends_command_or_takes_event hb hexp
    · exact ⟨1, t, Nat.le_refl 1, run_succ_of_step ht 0, hend⟩
    · cases hev.symm.trans he
  | cons e rest ih =>
    obtain ⟨t, ht, hnext⟩ := step_ends_command_or_takes_event hb hexp
    cases hbt : t.busy with
    | false => exact ⟨1, t, by simp, run_succ_of_step ht 0, hbt⟩
    | true =>
      obtain ⟨e', he⟩ := hnext.resolve_left (by simp [hbt])
      obtain ⟨-, rfl⟩ := List.cons.inj (hev.symm.trans he)
      have hexp' : ∀ x ∈ t.events, x.action.expressible = true := fun x hx =>
        hexp x (he ▸ List.mem_cons_of_mem e' hx)
      obtain ⟨n, u, hn, hrun, hend⟩ := ih t hbt hexp' rfl
      exact ⟨n + 1, u, Nat.succ_le_succ hn, (run_succ_of_step ht n).trans hrun, hend⟩

end Sys2Proof.Machine
end
